-- ==== Sys2Proof/Word.lean ====
section
/-! DEFINITION. The bit-vector types of the core: bytes, the 40-bit instruction word and its two fields, data cells.
Only the types stand here; every function that cuts or joins them is in Decode.lean. -/

namespace Sys2Proof

/-- One byte of instruction memory (10_state.md R26). -/
abbrev Byte := BitVec 8

/-- The 40-bit `value` of an instruction word (30_encoding.md R71). -/
abbrev Word := BitVec 40

/-- The opcode field `A = value[6:0]` (30_encoding.md R72). -/
abbrev OpField := BitVec 7

/-- The operand field `B = value[39:7]`, unsigned (30_encoding.md R72, R73). -/
abbrev Operand := BitVec 33

/-- `CELL`: the 64-bit two's-complement value of the accumulator and of every data cell (00_scope.md R7). -/
abbrev Cell := BitVec 64

end Sys2Proof
end

