-- ==== Sys2Proof/Config.lean ====
section
/-! DEFINITION. What is fixed for the machine: the parameters of 00_scope.md R7 that have a value, and the closed set of
mnemonics. The parameters a launch chooses (`MEM_SIZE`, `MEM_INIT`, the bytecode) are in State and in Machine/Launch.lean;
`PC_WIDTH` stays open (notes/assumptions/1.md). The core has no free value (93_implementation_defined.md), so no constant
here is opaque. -/

namespace Sys2Proof

/-- `WORD_BYTES`: every instruction is exactly 5 bytes (00_scope.md R7, 30_encoding.md R70). -/
def Config.wordBytes : Nat := 5

/-- The encoder accepts opcodes in `0 .. 2^OPC_BITS - 1`, `OPC_BITS = 7` (00_scope.md R7, 30_encoding.md R74). -/
def Config.opcodeLimit : Nat := 2 ^ 7

/-- The encoder accepts operands in `0 .. 2^OPD_ENC_BITS - 1`, `OPD_ENC_BITS = 26` (00_scope.md R7, 30_encoding.md R74). -/
def Config.encOperandLimit : Nat := 2 ^ 26

/-- The default of the launch parameter `MEM_SIZE` (00_scope.md R7, 92_eei_decisions.md D5). -/
def Config.defaultMemSize : Nat := 2048

/-- `SNAPSHOT_CELLS`: cells reported in the final trace entry, or `MEM_SIZE` if smaller (00_scope.md R7). -/
def Config.snapshotCells : Nat := 16

/-- The four names of the closed instruction set (30_encoding.md R81). -/
inductive Mnemonic where
  | loadConst
  | readValue
  | writeValue
  | less
  deriving DecidableEq, Repr

end Sys2Proof
end

