-- ==== Sys2Proof/Syntax.lean ====
section
/-! DEFINITION. The instruction set as syntax: one constructor per row of spec/opcode_table.json, each with its operand. -/

namespace Sys2Proof

/-- The four instructions (30_encoding.md R81); each carries the 33-bit unsigned operand `B` (30_encoding.md R73). -/
inductive Instr where
  /-- `load_const B` (41_data_transfer.md R130). -/
  | loadConst (b : Operand)
  /-- `read_value B` (41_data_transfer.md R131). -/
  | readValue (b : Operand)
  /-- `write_value B` (41_data_transfer.md R132). -/
  | writeValue (b : Operand)
  /-- `less B` (42_compare.md R150). -/
  | less (b : Operand)
  deriving DecidableEq, Repr

/-- The instruction's name, as the decoder returns it and the trace records it (30_encoding.md R76). -/
def Instr.mnemonic : Instr → Mnemonic
  | .loadConst _ => .loadConst
  | .readValue _ => .readValue
  | .writeValue _ => .writeValue
  | .less _ => .less

/-- The instruction's operand `B` (30_encoding.md R81: "`B` is always its operand"). -/
def Instr.operand : Instr → Operand
  | .loadConst b => b
  | .readValue b => b
  | .writeValue b => b
  | .less b => b

/-- The instruction with a given name and operand: the pair the decoder returns (30_encoding.md R76). -/
def Mnemonic.instr (m : Mnemonic) (b : Operand) : Instr :=
  match m with
  | .loadConst => .loadConst b
  | .readValue => .readValue b
  | .writeValue => .writeValue b
  | .less => .less b

end Sys2Proof
end

