-- ==== Sys2Proof/WellFormed.lean ====
section
/-! DEFINITION. Well-formed instructions and programs: those the encoder, and so the assembler, can produce.
A word outside this budget still decodes and executes (30_encoding.md R83, 90_conflicts.md C3), so no meaning and no
statement about execution asks for well-formedness; the type of `Instr` already bounds every operand by 2^33. -/

namespace Sys2Proof

/-- The operand is inside the encoder's 26-bit budget (30_encoding.md R74, R75). -/
abbrev Instr.WellFormed (i : Instr) : Prop := i.operand.toNat < Config.encOperandLimit

/-- Every instruction of the program is inside the encoder's budget (30_encoding.md R92). -/
abbrev ProgramWellFormed (p : List Instr) : Prop := ∀ i ∈ p, i.WellFormed

end Sys2Proof
end

