-- ==== Sys2Proof/Decode.lean ====
section
/-! DEFINITION. The instruction word: its bytes, its two fields, the decoder and the encoder (30_encoding.md).
Decoding is total on every byte sequence and rejects by name. -/

namespace Sys2Proof

/-- `LE(b0, b1, b2, b3, b4)`: the little-endian value of five bytes, `b0` the least significant
(00_scope.md R11, 30_encoding.md R71). -/
def leWord (b0 b1 b2 b3 b4 : Byte) : Word := b4 ++ b3 ++ b2 ++ b1 ++ b0

/-- Byte `k` of a word: bits `8k+7 .. 8k` (20_memory.md R53). -/
def wordByte (w : Word) (k : Nat) : Byte := w.extractLsb' (8 * k) 8

/-- The five bytes of a word, lowest address first (30_encoding.md R74). -/
def wordBytes (w : Word) : List Byte := [wordByte w 0, wordByte w 1, wordByte w 2, wordByte w 3, wordByte w 4]

/-- The field split `(value[6:0], value[39:7])`; it checks nothing (30_encoding.md R77). -/
def splitWord (w : Word) : OpField × Operand := (w.extractLsb' 0 7, w.extractLsb' 7 33)

/-- The word with given fields: 33 operand bits above 7 opcode bits (30_encoding.md R72). -/
def joinWord (a : OpField) (b : Operand) : Word := b ++ a

/-- The numeric opcode of a name (30_encoding.md R81). -/
def Mnemonic.opcode : Mnemonic → OpField
  | .loadConst => 14
  | .readValue => 11
  | .writeValue => 94
  | .less => 69

/-- The name an opcode value selects; `none` for the 124 illegal values (30_encoding.md R81, R82). -/
def opcodeName (a : OpField) : Option Mnemonic :=
  if a = 14 then some .loadConst
  else if a = 11 then some .readValue
  else if a = 94 then some .writeValue
  else if a = 69 then some .less
  else none

/-- Why the decoder refuses (30_encoding.md R76). -/
inductive DecodingError where
  /-- The byte slice is not exactly 5 bytes long; only at the decoder port (60_exceptions.md R171). -/
  | badLength (length : Nat)
  /-- The opcode field is none of the four values (30_encoding.md R82). -/
  | unknownOpcode (a : OpField)
  deriving DecidableEq, Repr

/-- `Decode` of a five-byte word given as its value; the one failure left is an illegal opcode field, which is returned
(30_encoding.md R76, 40_execution_loop.md R114). -/
def decodeWord (w : Word) : Except OpField Instr :=
  match opcodeName (splitWord w).1 with
  | some m => .ok (m.instr (splitWord w).2)
  | none => .error (splitWord w).1

/-- The decoder port: the length check first, then the field split and the opcode case (30_encoding.md R76,
60_exceptions.md R171). -/
def decode (bytes : List Byte) : Except DecodingError Instr :=
  match bytes with
  | [b0, b1, b2, b3, b4] =>
    match decodeWord (leWord b0 b1 b2 b3 b4) with
    | .ok i => .ok i
    | .error a => .error (.unknownOpcode a)
  | other => .error (.badLength other.length)

/-! ### The encoder -/

/-- The opcode field of an instruction's word (30_encoding.md R81). -/
def Instr.opcode (i : Instr) : OpField := i.mnemonic.opcode

/-- The word of an instruction, operand at its full 33 bits (30_encoding.md R72). -/
def encodeWord (i : Instr) : Word := joinWord i.opcode i.operand

/-- The bytes of an instruction's word, lowest address first (30_encoding.md R71, R72). For a well-formed instruction
these are what the encoder port returns. -/
def encode (i : Instr) : List Byte := wordBytes (encodeWord i)

/-- The encoder's error, with the opcode and operand it was given (60_exceptions.md R170). -/
structure EncodingError where
  opcode : Int
  operand : Int
  deriving DecidableEq, Repr

/-- The encoder port: two integers of any value to five bytes, or `EncodingError` when one is out of its range; the
opcode need not be one of the four (30_encoding.md R74). -/
def encodePort (opcode operand : Int) : Except EncodingError (List Byte) :=
  if ¬ (0 ≤ opcode ∧ opcode < (Config.opcodeLimit : Int)) then .error ⟨opcode, operand⟩
  else if ¬ (0 ≤ operand ∧ operand < (Config.encOperandLimit : Int)) then .error ⟨opcode, operand⟩
  else .ok (wordBytes (BitVec.ofNat 40 (opcode.toNat ||| (operand.toNat <<< 7))))

/-- The bytecode of a program: "the concatenation of all 5-byte instruction words in IR order" (30_encoding.md R79). -/
def encodeProgram (p : List Instr) : List Byte := p.flatMap encode

/-! ### The host's question about one word of the opcode table -/

/-- A table word's bits below `nbits`, the rest 0, as the 40-bit value of an instruction word: the table numbers bits
as 30_encoding.md R9's `value` does. -/
def tableWord (nbits w : Nat) : Word := BitVec.ofNat 40 (w % 2 ^ nbits)

/-- The instruction the decoder reads from a table word laid out as five little-endian bytes; `none` where it refuses. -/
def decodeTableWord (nbits w : Nat) : Option Instr :=
  match decode (wordBytes (tableWord nbits w)) with
  | .ok i => some i
  | .error _ => none

end Sys2Proof
end

