-- ==== Sys2Proof/Machine/State.lean ====
section
/-! DEFINITION. The state of a run, its reset value, and the reasons a step can stop (10_state.md, 70_reset_and_hazards.md). -/

namespace Sys2Proof.Machine

/-- Data memory: (cell address, cell value) pairs, addresses strictly rising, no pair holding the value an unlisted
cell reads as (Memory.wf in Machine/Ops.lean). The unit is the whole cell (20_memory.md R53, R56; notes/assumptions/5.md). -/
abbrev Memory := List (Nat × Cell)

/-- `STATUS.STATE` (10_state.md R29); R30 lets a model use an enumeration. -/
inductive RunState where
  | running
  | haltedNormal
  | haltedError
  deriving DecidableEq, Repr

/-- `STATUS.CAUSE` (10_state.md R29). -/
inductive Cause where
  | none
  | decodingError
  | memoryAccessError
  /-- Never written by a step: 40_execution_loop.md R117, notes/assumptions/9.md. -/
  | dispatchError
  deriving DecidableEq, Repr

/-- The run status register (10_state.md R29). -/
structure Status where
  state : RunState
  cause : Cause
  /-- `FAULT_PC`; `PC_WIDTH` is open, so it is a natural number (notes/assumptions/1.md). -/
  faultPc : Nat
  faultInfo : BitVec 33
  deriving DecidableEq, Repr

/-- `STATUS` at launch: `RUNNING`, and 0 in the other fields (70_reset_and_hazards.md R190). -/
def Status.reset : Status := { state := .running, cause := .none, faultPc := 0, faultInfo := 0 }

/-- The records of the execution log (40_execution_loop.md R121). -/
inductive TraceEntry where
  | exec (pc : Nat) (mnemonic : Mnemonic) (operand : Operand) (accBefore : Cell)
  | error (pc : Nat) (cause : Cause) (info : BitVec 33)
  | summary (pc : Nat) (acc : Cell) (cells : List Cell)
  deriving DecidableEq, Repr

/-- Why the machine stops. -/
inductive Fault where
  /-- Raised by `step` when `STATUS.STATE` is not `RUNNING`: no step is enabled once a run has ended
  (40_execution_loop.md R110, 60_exceptions.md R166). Safe: the hardware takes no step there either. -/
  | runEnded
  deriving DecidableEq, Repr

/-- Why the model gives a call or a step no meaning. -/
inductive Refusal where
  /-- An instruction without a meaning yet; raised by `exec`'s own arms only. Safe. No arm raises it now. -/
  | notModelled (mnemonic : String)
  /-- Raised by `execute` on a state that is not fresh (70_reset_and_hazards.md R193, 92_eei_decisions.md D10). Safe:
  such a call is outside the contract. -/
  | notFresh
  /-- Raised by `launchState` for `MEM_SIZE = 0` (92_eei_decisions.md D5). Safe. -/
  | memSizeZero
  /-- Raised by `launchState` for a `MEM_INIT` value that is no 64-bit signed integer (92_eei_decisions.md D20). Safe. -/
  | cellOutOfRange
  /-- Raised by `step` where the latched `N` promises a word that `IMEM` does not hold, which no launch makes
  (10_state.md R27, 20_memory.md R55; notes/assumptions/8.md). Safe. -/
  | fetchOutsideImem
  deriving DecidableEq, Repr

/-- The state of a run (10_state.md R20, 70_reset_and_hazards.md R190). It has no field for a mode, a level or a guest,
and none for a vector or a handler: the spec has one mode, one level and no handler (60_exceptions.md R165, R174, R175). -/
structure State where
  /-- `ACC` (R21). -/
  acc : Cell
  /-- `PC`, counted in instructions (R22). -/
  pc : Nat
  /-- `DMEM` (R25). -/
  dmem : Memory
  /-- `MEM_SIZE`, the launch parameter (00_scope.md R7). -/
  memSize : Nat
  /-- `IMEM`, lowest address first (R26). -/
  imem : List Byte
  /-- `N`, latched at launch (R27). -/
  n : Nat
  /-- `STACK`, the placeholder (R28). -/
  stack : List Cell
  /-- `STATUS` (R29). -/
  status : Status
  /-- The execution log, oldest entry first (R32). -/
  log : List TraceEntry
  deriving DecidableEq, Repr

/-- The fresh default state of 70_reset_and_hazards.md R190 with no bytecode loaded (`L = 0`, so `N = 0`); see
notes/assumptions/3.md and 4.md. -/
def State.reset : State :=
  { acc := 0, pc := 0, dmem := [], memSize := Config.defaultMemSize, imem := [], n := 0, stack := [],
    status := Status.reset, log := [] }

end Sys2Proof.Machine
end

