-- ==== Sys2Proof/Machine/Flags.lean ====
section
/-! DEFINITION. The core has no flags (10_state.md R31). Its one comparison gives a 0/1 cell value, computed here, and the
numeric codes of STATUS's enumerations stand beside it. -/

namespace Sys2Proof.Machine

/-- `lhs < rhs`, strict and signed, as the cell value 1 or 0 (42_compare.md R150, R151). -/
def lessThan (lhs rhs : Cell) : Cell := if lhs.toInt < rhs.toInt then 1 else 0

/-- The 2-bit code of `STATUS.STATE` (10_state.md R29). -/
def stateCode : RunState → BitVec 2
  | .running => 0
  | .haltedNormal => 1
  | .haltedError => 2

/-- The 2-bit code of `STATUS.CAUSE` (10_state.md R29). -/
def causeCode : Cause → BitVec 2
  | .none => 0
  | .decodingError => 1
  | .memoryAccessError => 2
  | .dispatchError => 3

end Sys2Proof.Machine
end

