-- ==== Sys2Proof/Machine/Operands.lean ====
section
/-! DEFINITION. The two uses of the operand field `B` (30_encoding.md R73): an immediate constant and a cell address. -/

namespace Sys2Proof.Machine

/-- `B` as an immediate: zero-extended to a cell, always exact (41_data_transfer.md R130). -/
def immediate (b : Operand) : Cell := b.setWidth 64

/-- `B` as a data cell address: the unsigned integer itself, used directly as the cell index (20_memory.md R51, R61). -/
def cellAddress (b : Operand) : Nat := b.toNat

end Sys2Proof.Machine
end

