-- ==== Sys2Proof/Machine/Ops.lean ====
section
/-! DEFINITION. The named operations over memory, registers, the log and STATUS, the halt that stands for taking an
exception, and the parts of the sequencer's step (20_memory.md, 40_execution_loop.md, 60_exceptions.md). -/

namespace Sys2Proof.Machine

/-! ### Register and log updates -/

/-- `ACC <- v`. -/
def State.setAcc (s : State) (v : Cell) : State := { s with acc := v }

/-- `PC <- v`; only `advance` uses it (10_state.md R23). -/
def State.setPc (s : State) (v : Nat) : State := { s with pc := v }

/-- Replace the data memory. -/
def State.setDmem (s : State) (m : Memory) : State := { s with dmem := m }

/-- `STATUS <- v`. -/
def State.setStatus (s : State) (v : Status) : State := { s with status := v }

/-- `Trace(entry)`: append to the execution log (00_scope.md R11). -/
def State.trace (s : State) (e : TraceEntry) : State := { s with log := s.log ++ [e] }

/-! ### Data memory as canonical data -/

/-- What a cell that the list does not name reads as: 0, the fresh default of 92_eei_decisions.md D4
(notes/assumptions/5.md). -/
def Memory.unlisted : Cell := 0

/-- The value of the cell at address `a`. -/
def Memory.read (m : Memory) (a : Nat) : Cell :=
  match m with
  | [] => Memory.unlisted
  | c :: rest => if c.1 = a then c.2 else Memory.read rest a

/-- Put a pair before the first pair with a higher address. -/
def Memory.insert (m : Memory) (a : Nat) (v : Cell) : Memory :=
  match m with
  | [] => [(a, v)]
  | c :: rest => if a < c.1 then (a, v) :: c :: rest else c :: Memory.insert rest a v

/-- The memory without any pair for address `a`. -/
def Memory.erase (m : Memory) (a : Nat) : Memory := m.filter (fun c => c.1 != a)

/-- The memory after the cell at `a` is replaced by `v`; writing what an unlisted cell reads as removes the pair. -/
def Memory.write (m : Memory) (a : Nat) (v : Cell) : Memory :=
  if v = Memory.unlisted then m.erase a else (m.erase a).insert a v

/-- The canonical form: addresses strictly rising, no pair equal to what an unlisted cell reads as. -/
abbrev Memory.wf (m : Memory) : Prop :=
  m.Pairwise (fun c d => c.1 < d.1) ∧ ∀ c ∈ m, c.2 ≠ Memory.unlisted

/-- Every listed cell exists: its address is below `MEM_SIZE` (20_memory.md R51). -/
abbrev Memory.Bounded (m : Memory) (size : Nat) : Prop := ∀ c ∈ m, c.1 < size

/-! ### Data memory access -/

/-- `MemoryAccessError(a)` (60_exceptions.md R163). -/
structure MemoryAccessError where
  address : Operand
  deriving DecidableEq, Repr

/-- A data address is valid if and only if it is below `MEM_SIZE` (20_memory.md R51). -/
abbrev State.ValidAddress (s : State) (b : Operand) : Prop := cellAddress b < s.memSize

/-- `MemRead(a, 1)` (20_memory.md R52). -/
def memRead (b : Operand) (s : State) : Except MemoryAccessError Cell :=
  if s.ValidAddress b then .ok (s.dmem.read (cellAddress b)) else .error ⟨b⟩

/-- `MemWrite(a, 1, v)` (20_memory.md R52). -/
def memWrite (b : Operand) (v : Cell) (s : State) : Except MemoryAccessError State :=
  if s.ValidAddress b then .ok (s.setDmem (s.dmem.write (cellAddress b) v)) else .error ⟨b⟩

/-! ### The end of a run -/

/-- The summary's cells `DMEM[0 .. S-1]`, `S = min(16, MEM_SIZE)` (40_execution_loop.md R120). -/
def State.snapshot (s : State) : List Cell :=
  (List.range (min Config.snapshotCells s.memSize)).map s.dmem.read

/-- `Summary(PC, ACC, DMEM[0 .. S-1])` (40_execution_loop.md R121). -/
def State.summary (s : State) : TraceEntry := .summary s.pc s.acc s.snapshot

/-- `HaltError(cause, info)`: the whole of taking a run-time error (60_exceptions.md R164). There is no return from it
(60_exceptions.md R166), so no operation beside it undoes it. Every error of every run comes here: there is one level and
no handler, so nothing is delegated and `PC` is left alone (60_exceptions.md R165, R175). -/
def haltError (cause : Cause) (info : BitVec 33) (s : State) : State :=
  ((s.trace (.error s.pc cause info)).setStatus
    { state := .haltedError, cause := cause, faultPc := s.pc, faultInfo := info }).trace s.summary

/-- The halt on an illegal opcode field, its 7 bits zero-extended (40_execution_loop.md R114, 10_state.md R29). -/
def haltDecoding (a : OpField) (s : State) : State := haltError .decodingError (a.setWidth 33) s

/-- The halt on `MemoryAccessError(a)` (40_execution_loop.md R119). -/
def haltMemory (e : MemoryAccessError) (s : State) : State := haltError .memoryAccessError e.address s

/-- The normal end: `STATE` alone changes, and the summary is logged (40_execution_loop.md R112). -/
def haltNormal (s : State) : State :=
  (s.setStatus { s.status with state := .haltedNormal }).trace s.summary

/-! ### The parts of a step -/

/-- A step is enabled only while `STATUS.STATE = RUNNING` (40_execution_loop.md R110). -/
def State.isRunning (s : State) : Bool := s.status.state = .running

/-- `IFetch(pc)`: the word of the five bytes at `5*pc .. 5*pc+4`; `none` where `IMEM` has no such byte, which no launch
makes (20_memory.md R55, notes/assumptions/8.md). -/
def ifetch (imem : List Byte) (pc : Nat) : Option Word :=
  match imem.drop (Config.wordBytes * pc) with
  | b0 :: b1 :: b2 :: b3 :: b4 :: _ => some (leWord b0 b1 b2 b3 b4)
  | _ => none

/-- The `Exec` entry, written before the instruction executes (40_execution_loop.md R115). -/
def traceExec (i : Instr) (s : State) : State := s.trace (.exec s.pc i.mnemonic i.operand s.acc)

/-- "After dispatch (unless the loop has halted on error), increment the program counter by exactly 1"
(40_execution_loop.md R118, R119). -/
def advance (s : State) : State := if s.isRunning then s.setPc (s.pc + 1) else s

/-- The length of a bytecode in whole instructions, `L div 5` (10_state.md R27). -/
def instrCount (bytes : List Byte) : Nat := bytes.length / Config.wordBytes

/-- `IMEM` with a word's five bytes placed at instruction index `pc`, padded with zero bytes where it was shorter. -/
def placeWord (imem : List Byte) (pc : Nat) (w : Word) : List Byte :=
  let at_ := Config.wordBytes * pc
  imem.take at_ ++ List.replicate (at_ - imem.length) 0 ++ wordBytes w ++ imem.drop (at_ + Config.wordBytes)

end Sys2Proof.Machine
end

