-- ==== Sys2Proof/Machine/Compare.lean ====
section
/-! DEFINITION. The meaning of less (42_compare.md). -/

namespace Sys2Proof.Machine

/-- `less B`: `lhs = MemRead(B, 1)`, then `MemWrite(B, 1, 1)` if `lhs < ACC` else `MemWrite(B, 1, 0)`; the stored cell is
the left-hand side (42_compare.md R150). -/
def execLess (b : Operand) (s : State) : Host.Outcome State Fault Refusal :=
  match memRead b s with
  | .error e => .next (haltMemory e s)
  | .ok lhs =>
    match memWrite b (lessThan lhs s.acc) s with
    | .ok t => .next t
    | .error e => .next (haltMemory e s)

end Sys2Proof.Machine
end

