-- ==== Sys2Proof/Machine/DataTransfer.lean ====
section
/-! DEFINITION. The meanings of load_const, read_value and write_value (41_data_transfer.md): `Execute(name, B)` of
40_execution_loop.md R116, with a MemoryAccessError taken as the halt of R119. -/

namespace Sys2Proof.Machine

/-- `load_const B`: `ACC <- B` (41_data_transfer.md R130). -/
def execLoadConst (b : Operand) (s : State) : Host.Outcome State Fault Refusal :=
  .next (s.setAcc (immediate b))

/-- `read_value B`: `ACC <- MemRead(B, 1)` (41_data_transfer.md R131). -/
def execReadValue (b : Operand) (s : State) : Host.Outcome State Fault Refusal :=
  match memRead b s with
  | .ok v => .next (s.setAcc v)
  | .error e => .next (haltMemory e s)

/-- `write_value B`: `MemWrite(B, 1, ACC)` (41_data_transfer.md R132). -/
def execWriteValue (b : Operand) (s : State) : Host.Outcome State Fault Refusal :=
  match memWrite b s.acc s with
  | .ok t => .next t
  | .error e => .next (haltMemory e s)

end Sys2Proof.Machine
end

