-- ==== Sys2Proof/Machine/Dispatch.lean ====
section
/-! DEFINITION. `Execute(name, B)`: one arm per constructor (40_execution_loop.md R116). -/

namespace Sys2Proof.Machine

/-- The dispatch of 40_execution_loop.md R116. The type has exactly four constructors, so R117's arm is absent. -/
def exec (i : Instr) (s : State) : Host.Outcome State Fault Refusal :=
  match i with
  | .loadConst b => Sys2Proof.Machine.execLoadConst b s
  | .readValue b => Sys2Proof.Machine.execReadValue b s
  | .writeValue b => Sys2Proof.Machine.execWriteValue b s
  | .less b => Sys2Proof.Machine.execLess b s

end Sys2Proof.Machine
end

