-- ==== Sys2Proof/Machine/Step.lean ====
section
/-! DEFINITION. One step of the sequencer (40_execution_loop.md R111), and the placing of a word where it fetches next. -/

namespace Sys2Proof.Machine

/-- `Step()` (40_execution_loop.md R111): the normal end at `PC >= N`, else fetch, decode, trace, execute, increment. -/
def step (s : State) : Host.Outcome State Fault Refusal :=
  if s.isRunning then
    if s.n ≤ s.pc then .next (haltNormal s)
    else
      match ifetch s.imem s.pc with
      | none => .refused .fetchOutsideImem
      | some w =>
        match decodeWord w with
        | .error a => .next (haltDecoding a s)
        | .ok i =>
          match exec i (traceExec i s) with
          | .next t => .next (advance t)
          | .fault f => .fault f
          | .refused r => .refused r
  else .fault .runEnded

/-- The state with a table word stored at instruction index `PC` and the program launched so that the next step runs it:
`IMEM` holds the word, `N` is latched from the new length, and a run that had ended is `RUNNING` again
(notes/assumptions/4.md). -/
def State.withFetchWord (s : State) (nbits w : Nat) : State :=
  { s with
    imem := placeWord s.imem s.pc (tableWord nbits w)
    n := instrCount (placeWord s.imem s.pc (tableWord nbits w))
    status := if s.isRunning then s.status else Status.reset }

end Sys2Proof.Machine
end

