-- ==== Sys2Proof/Machine/Assembler.lean ====
section
/-! DEFINITION. The assembler port: source text to bytecode and IR (30_encoding.md section 6). Source text is a list of
characters, so that every function is a structural recursion (notes/assumptions/16.md). -/

namespace Sys2Proof.Machine

/-- Text as a list of characters. -/
abbrev Text := List Char

/-! ### Results -/

/-- The load-time errors an assembly reports (60_exceptions.md R170). -/
inductive AsmError where
  /-- A missing or unparseable argument; carries the offending mnemonic (30_encoding.md R88, R89). -/
  | syntaxError (mnemonic : Text)
  /-- A mnemonic that is not in the opcode enumeration (30_encoding.md R91). -/
  | unknownMnemonic (mnemonic : Text)
  /-- The encoder's error (30_encoding.md R92). -/
  | encoding (e : EncodingError)
  deriving DecidableEq, Repr

/-- One IR entry, `(mnemonic, argument)` (30_encoding.md R90). -/
structure IrEntry where
  mnemonic : Text
  argument : Int
  deriving DecidableEq, Repr

/-- A completed assembly: bytecode and IR (30_encoding.md R95), and whether the source was empty, which is a warning
(30_encoding.md R85, 60_exceptions.md R172). -/
structure AsmResult where
  bytecode : List Byte
  ir : List IrEntry
  nothingToAssemble : Bool
  deriving DecidableEq, Repr

/-! ### Characters and lines -/

/-- Space, tab, line feed, carriage return, vertical tab and form feed (30_encoding.md R85). -/
def isSpace (c : Char) : Bool := c.toNat = 0x20 || (0x09 ≤ c.toNat && c.toNat ≤ 0x0D)

/-- Strip leading whitespace. -/
def stripLeft (t : Text) : Text := t.dropWhile isSpace

/-- Strip leading and trailing whitespace. -/
def strip (t : Text) : Text := (stripLeft (stripLeft t).reverse).reverse

/-- Split at each line feed (30_encoding.md R86). -/
def splitLines (t : Text) : List Text :=
  match t with
  | [] => [[]]
  | c :: rest =>
    if c = '\n' then [] :: splitLines rest
    else
      match splitLines rest with
      | [] => [[c]]
      | l :: ls => (c :: l) :: ls

/-- Everything before the first `#` (30_encoding.md R86). -/
def dropComment (t : Text) : Text := t.takeWhile (· != '#')

/-- The text before the first `;`, and the text after it if there is one, both stripped (30_encoding.md R87).
DEDUCED: with no `;` the first part is the whole line, stripped (notes/assumptions/16.md). -/
def splitArgument (t : Text) : Text × Option Text :=
  (strip (t.takeWhile (· != ';')),
    match t.dropWhile (· != ';') with
    | [] => none
    | _ :: rest => some (strip rest))

/-! ### The integer argument -/

/-- An ASCII decimal digit. -/
def isDecimalDigit (c : Char) : Bool := 0x30 ≤ c.toNat && c.toNat ≤ 0x39

/-- The number a decimal digit stands for. -/
def digitNumber (c : Char) : Nat := c.toNat - 0x30

/-- The number a list of decimal digits writes, most significant first. -/
def decimalValue (t : Text) : Nat := t.foldl (fun value c => 10 * value + digitNumber c) 0

/-- One or more decimal digits and nothing else (30_encoding.md R89). -/
def parseDigits (t : Text) : Option Nat :=
  if t ≠ [] ∧ t.all isDecimalDigit then some (decimalValue t) else none

/-- A base-10 signed integer: an optional sign, then digits (30_encoding.md R89). -/
def parseInteger (t : Text) : Option Int :=
  match t with
  | [] => none
  | c :: rest =>
    if c = '+' then (parseDigits rest).map Int.ofNat
    else if c = '-' then (parseDigits rest).map (fun n : Nat => -(Int.ofNat n))
    else (parseDigits (c :: rest)).map Int.ofNat

/-! ### Pass 1: lines to IR -/

/-- One line: nothing if it is blank after its comment is stripped, else its IR entry or a `SyntaxError` naming the
mnemonic (30_encoding.md R86 to R90). -/
def parseLine (line : Text) : Except AsmError (Option IrEntry) :=
  let t := strip (dropComment line)
  if t = [] then .ok none
  else
    let mnemonic := (splitArgument t).1
    match (splitArgument t).2 with
    | none => .error (.syntaxError mnemonic)
    | some arg =>
      match parseInteger arg with
      | none => .error (.syntaxError mnemonic)
      | some v => .ok (some { mnemonic := mnemonic, argument := v })

/-- Every line in source order; the first error aborts (30_encoding.md R93). -/
def parseLines (lines : List Text) : Except AsmError (List IrEntry) :=
  match lines with
  | [] => .ok []
  | l :: rest =>
    match parseLine l with
    | .error e => .error e
    | .ok entry =>
      match parseLines rest with
      | .error e => .error e
      | .ok ir => .ok (entry.toList ++ ir)

/-! ### Pass 2: IR to bytecode -/

/-- The spelling of each mnemonic (30_encoding.md R81, R84). -/
def mnemonicText : Mnemonic → Text
  | .loadConst => ['l', 'o', 'a', 'd', '_', 'c', 'o', 'n', 's', 't']
  | .readValue => ['r', 'e', 'a', 'd', '_', 'v', 'a', 'l', 'u', 'e']
  | .writeValue => ['w', 'r', 'i', 't', 'e', '_', 'v', 'a', 'l', 'u', 'e']
  | .less => ['l', 'e', 's', 's']

/-- The mnemonic a text names, character for character (30_encoding.md R91). -/
def findMnemonic (t : Text) : Option Mnemonic :=
  [Mnemonic.loadConst, .readValue, .writeValue, .less].find? (fun m => mnemonicText m = t)

/-- One entry: the mnemonic lookup, then the encoder (30_encoding.md R91 to R93). -/
def lowerEntry (e : IrEntry) : Except AsmError (List Byte) :=
  match findMnemonic e.mnemonic with
  | none => .error (.unknownMnemonic e.mnemonic)
  | some m =>
    match encodePort (m.opcode.toNat : Int) e.argument with
    | .error err => .error (.encoding err)
    | .ok bytes => .ok bytes

/-- Every entry in IR order, the words concatenated; the first error aborts (30_encoding.md R79, R93). -/
def lower (ir : List IrEntry) : Except AsmError (List Byte) :=
  match ir with
  | [] => .ok []
  | e :: rest =>
    match lowerEntry e with
    | .error err => .error err
    | .ok bytes =>
      match lower rest with
      | .error err => .error err
      | .ok more => .ok (bytes ++ more)

/-- `assemble(source_text)` (10_state.md R37, 30_encoding.md R85 to R95). -/
def assemble (source : Text) : Except AsmError AsmResult :=
  if strip source = [] then .ok { bytecode := [], ir := [], nothingToAssemble := true }
  else
    match parseLines (splitLines (strip source)) with
    | .error e => .error e
    | .ok ir =>
      match lower ir with
      | .error e => .error e
      | .ok bytes => .ok { bytecode := bytes, ir := ir, nothingToAssemble := false }

end Sys2Proof.Machine
end

