-- ==== Sys2Proof/Machine/Launch.lean ====
section
/-! DEFINITION. The interpreter port and what surrounds a run: the fresh state, loading the bytecode, the whole run, and
reading the state afterwards (10_state.md R33, R36; 40_execution_loop.md R123; 70_reset_and_hazards.md R190, R193). -/

namespace Sys2Proof.Machine

/-! ### The fresh state -/

/-- A host integer that is a `CELL` value, a 64-bit signed integer (70_reset_and_hazards.md R193). -/
abbrev InCell (v : Int) : Prop := -2 ^ 63 ≤ v ∧ v < 2 ^ 63

/-- The canonical memory whose cells `0 .. size-1` hold `f`; every `MEM_INIT` is such a function (70_reset_and_hazards.md
R190). -/
def Memory.ofFn (size : Nat) (f : Nat → Cell) : Memory :=
  ((List.range size).map (fun a => (a, f a))).filter (fun c => c.2 != Memory.unlisted)

/-- The fresh machine state with the host's `MEM_SIZE` and `MEM_INIT`; no cells at all, or a value that is no `CELL`,
is refused (70_reset_and_hazards.md R193, 92_eei_decisions.md D5, D20). -/
def launchState (size : Nat) (memInit : Nat → Int) : Host.Outcome State Fault Refusal :=
  if size = 0 then .refused .memSizeZero
  else if ∀ a ∈ List.range size, InCell (memInit a) then
    .next { State.reset with
      memSize := size, dmem := Memory.ofFn size (fun a => BitVec.ofInt 64 (memInit a)) }
  else .refused .cellOutOfRange

/-- The state of 70_reset_and_hazards.md R190 but for the bytecode, which the call of `execute` brings: what a run may
start from (70_reset_and_hazards.md R193; notes/assumptions/11.md). -/
abbrev State.Fresh (s : State) : Prop :=
  s.pc = 0 ∧ s.acc = 0 ∧ s.stack = [] ∧ s.status = Status.reset ∧ s.log = [] ∧
    1 ≤ s.memSize ∧ s.dmem.wf ∧ s.dmem.Bounded s.memSize

/-! ### A run -/

/-- Load `IMEM` and latch `N = L div 5` (10_state.md R26, R27). -/
def State.loadBytecode (s : State) (bytes : List Byte) : State := { s with imem := bytes, n := instrCount bytes }

/-- Steps until the run has ended, at most `fuel` of them. -/
def runFrom (fuel : Nat) (s : State) : Host.Outcome State Fault Refusal :=
  match fuel with
  | 0 => .next s
  | k + 1 =>
    if s.isRunning then
      match step s with
      | .next t => runFrom k t
      | .fault f => .fault f
      | .refused r => .refused r
    else .next s

/-- The interpreter port: the run of a bytecode on a fresh state; the answered state's `log` is the port's response.
A state that is not fresh is refused (10_state.md R36, 70_reset_and_hazards.md R193). The fuel is the bound of
40_execution_loop.md R124. -/
def execute (bytes : List Byte) (s : State) : Host.Outcome State Fault Refusal :=
  if s.Fresh then runFrom (instrCount bytes + 1) (s.loadBytecode bytes) else .refused .notFresh

/-! ### Reading the state -/

/-- What the host may read: stack, program counter, accumulator, a range of data memory, and `STATUS` (10_state.md R33). -/
structure ReadOut where
  stack : List Cell
  pc : Nat
  acc : Cell
  cells : List Cell
  status : Status
  deriving DecidableEq, Repr

/-- The read-out with the `count` cells from address `first`; `none` where the range leaves data memory
(10_state.md R33; notes/assumptions/12.md). -/
def State.readOut (s : State) (first count : Nat) : Option ReadOut :=
  if first + count ≤ s.memSize then
    some { stack := s.stack, pc := s.pc, acc := s.acc,
           cells := (List.range' first count).map s.dmem.read, status := s.status }
  else none

/-- The observation of a run: its final `PC`, `ACC`, `DMEM`, `STACK` and `STATUS`, and its log (40_execution_loop.md
R123). -/
structure Observation where
  pc : Nat
  acc : Cell
  cells : List Cell
  stack : List Cell
  status : Status
  log : List TraceEntry
  deriving DecidableEq, Repr

/-- A state's observation; `DMEM` is written out cell by cell. -/
def State.observe (s : State) : Observation :=
  { pc := s.pc, acc := s.acc, cells := (List.range s.memSize).map s.dmem.read, stack := s.stack, status := s.status,
    log := s.log }

end Sys2Proof.Machine
end

