-- ==== Sys2Proof/Safety.lean ====
section
/-! DEFINITION. The terms claims are stated in: the invariant of a run, the shape of its log, and the source's own
interpreter over unbounded integers, which the 64-bit machine is compared with. -/

namespace Sys2Proof.Machine

/-! ### Invariants of a run -/

/-- `STATUS` reads as 10_state.md R29 says. Unless `STATE` is `HALTED_ERROR`, the other fields are 0. After an error,
`FAULT_PC` is the `PC` it left (60_exceptions.md R164) and `FAULT_INFO` is an illegal opcode field, zero-extended, or an
address outside memory of `size` cells. -/
abbrev Status.Legal (st : Status) (pc size : Nat) : Prop :=
  if st.state = .haltedError then
    st.faultPc = pc ∧
      ((st.cause = .decodingError ∧ st.faultInfo.toNat < 2 ^ 7 ∧ opcodeName (st.faultInfo.setWidth 7) = none) ∨
       (st.cause = .memoryAccessError ∧ size ≤ st.faultInfo.toNat))
  else st.cause = .none ∧ st.faultPc = 0 ∧ st.faultInfo = 0

/-- What holds at launch and after every step: canonical memory inside `MEM_SIZE >= 1`, `N` as latched from `IMEM`,
`PC` in `0 .. N` (10_state.md R23), `PC < N` unless the end was normal, `STACK` empty (R28), a legal `STATUS`. -/
abbrev State.Inv (s : State) : Prop :=
  1 ≤ s.memSize ∧ s.dmem.wf ∧ s.dmem.Bounded s.memSize ∧ s.n = instrCount s.imem ∧ s.pc ≤ s.n ∧ s.stack = [] ∧
    s.status.Legal s.pc s.memSize ∧ (s.status.state = .haltedNormal → s.pc = s.n) ∧ (s.status.state = .haltedError → s.pc < s.n)

/-- The entry is an `Exec` entry. -/
def TraceEntry.isExec : TraceEntry → Bool
  | .exec .. => true
  | .error .. => false
  | .summary .. => false

/-- The entry is an `Exec` entry for instruction index `k`. -/
def TraceEntry.isExecAt (e : TraceEntry) (k : Nat) : Bool :=
  match e with
  | .exec pc _ _ _ => pc = k
  | .error .. => false
  | .summary .. => false

/-- The entries are `Exec` entries for the instruction indices `0, 1, …`, one each, in order. -/
abbrev ExecEntriesInOrder (l : List TraceEntry) : Prop :=
  ∀ k (h : k < l.length), (l[k]).isExecAt k = true

/-- The log of 40_execution_loop.md R121: while running, one `Exec` entry per executed instruction; after the normal end,
`N` of them and one `Summary`; after an error at index `k`, `k` of them (illegal opcode) or `k + 1` (memory), one `Error`
and one `Summary`. -/
def LogShape (s : State) : Prop :=
  match s.status.state with
  | .running => ExecEntriesInOrder s.log ∧ s.log.length = s.pc
  | .haltedNormal =>
    ∃ execs, s.log = execs ++ [s.summary] ∧ ExecEntriesInOrder execs ∧ execs.length = s.n
  | .haltedError =>
    ∃ execs, s.log = execs ++ [.error s.pc s.status.cause s.status.faultInfo, s.summary] ∧ ExecEntriesInOrder execs ∧
      execs.length = if s.status.cause = .memoryAccessError then s.pc + 1 else s.pc

/-- A value a program can make itself: `0 .. 2^33-1` (10_state.md R21). -/
abbrev ProgramMade (v : Cell) : Prop := 0 ≤ v.toInt ∧ v.toInt < 2 ^ 33

/-- Every value the state holds is one a program can make itself. -/
abbrev State.AllProgramMade (s : State) : Prop := ProgramMade s.acc ∧ ∀ a, ProgramMade (s.dmem.read a)

/-- The run goes on, and the next word it fetches is `w`. -/
abbrev State.Fetches (s : State) (w : Word) : Prop :=
  s.status.state = .running ∧ s.pc < s.n ∧ ifetch s.imem s.pc = some w

/-! ### The source's interpreter, over unbounded integers -/

/-- The accumulator and the cells as the integers they stand for. -/
structure Values where
  acc : Int
  cell : Nat → Int

/-- The integers a state holds. -/
def State.values (s : State) : Values := { acc := s.acc.toInt, cell := fun a => (s.dmem.read a).toInt }

/-- One cell replaced. -/
def Values.set (v : Values) (a : Nat) (x : Int) : Values := { v with cell := fun b => if b = a then x else v.cell b }

/-- What each instruction does to unbounded integers: the source's own sentences in 41_data_transfer.md and
42_compare.md. -/
def Values.after (i : Instr) (v : Values) : Values :=
  match i with
  | .loadConst b => { v with acc := (b.toNat : Int) }
  | .readValue b => { v with acc := v.cell b.toNat }
  | .writeValue b => v.set b.toNat v.acc
  | .less b => v.set b.toNat (if v.cell b.toNat < v.acc then 1 else 0)

/-- The instruction has a data address outside memory of `size` cells (60_exceptions.md R161). -/
def outsideMemory (size : Nat) (i : Instr) : Bool :=
  match i with
  | .loadConst _ => false
  | .readValue b => size ≤ b.toNat
  | .writeValue b => size ≤ b.toNat
  | .less b => size ≤ b.toNat

/-- The consecutive 5-byte windows of a bytecode; a trailing fragment is dropped (40_execution_loop.md R113, R122). -/
def windows (bytes : List Byte) : List Word :=
  match bytes with
  | b0 :: b1 :: b2 :: b3 :: b4 :: rest => leWord b0 b1 b2 b3 b4 :: windows rest
  | _ => []

/-- How a run ended: where, with what values, and for an error its cause and recorded value. -/
structure RunEnd where
  pc : Nat
  values : Values
  error : Option (Cause × BitVec 33)

/-- The source's loop over unbounded integers, one recursion over the windows from instruction index `pc` on
(40_execution_loop.md R111 to R119). -/
def referenceRun (size pc : Nat) (ws : List Word) (v : Values) : RunEnd :=
  match ws with
  | [] => { pc := pc, values := v, error := none }
  | w :: rest =>
    match decodeWord w with
    | .error a => { pc := pc, values := v, error := some (.decodingError, a.setWidth 33) }
    | .ok i =>
      if outsideMemory size i then { pc := pc, values := v, error := some (.memoryAccessError, i.operand) }
      else referenceRun size (pc + 1) rest (v.after i)

/-- The `STATUS` a run's end leaves (10_state.md R29). -/
def RunEnd.status (r : RunEnd) : Status :=
  match r.error with
  | none => { state := .haltedNormal, cause := .none, faultPc := 0, faultInfo := 0 }
  | some (cause, info) => { state := .haltedError, cause := cause, faultPc := r.pc, faultInfo := info }

/-! ### Source text of an assembly -/

/-- The parts of a line that holds one instruction (30_encoding.md R84, R87, R89). -/
structure InstrLine where
  lead : Text
  mnemonic : Mnemonic
  beforeSemicolon : Text
  afterSemicolon : Text
  /-- A plus sign stands before the digits. -/
  plus : Bool
  digits : Text
  trail : Text
  comment : Text
  deriving DecidableEq, Repr

/-- A line of source text: an instruction, or white space and a comment. -/
inductive SourceLine where
  | instr (l : InstrLine)
  | blank (space comment : Text)
  deriving DecidableEq, Repr

/-- White space inside a line. -/
abbrev Blank (t : Text) : Prop := t.all (fun c => isSpace c && c != '\n') = true

/-- No comment, or one that starts with `#` and stays on its line. -/
abbrev CommentText (t : Text) : Prop := (t = [] ∨ t.head? = some '#') ∧ t.all (fun c => c != '\n') = true

/-- The number a digit string writes. -/
def digitsValue (t : Text) : Nat := Nat.ofDigits 10 (t.reverse.map digitNumber)

/-- The line's parts are what 30_encoding.md R84 to R89 allow, and its argument is in the encoder's budget. -/
abbrev SourceLine.Good (l : SourceLine) : Prop :=
  match l with
  | .instr l => Blank l.lead ∧ Blank l.beforeSemicolon ∧ Blank l.afterSemicolon ∧ Blank l.trail ∧ CommentText l.comment ∧
      l.digits ≠ [] ∧ l.digits.all isDecimalDigit = true ∧ digitsValue l.digits < Config.encOperandLimit
  | .blank space comment => Blank space ∧ CommentText comment

/-- The line as text. -/
def SourceLine.text (l : SourceLine) : Text :=
  match l with
  | .instr l => l.lead ++ mnemonicText l.mnemonic ++ l.beforeSemicolon ++ [';'] ++ l.afterSemicolon ++
      (if l.plus then ['+'] else []) ++ l.digits ++ l.trail ++ l.comment
  | .blank space comment => space ++ comment

/-- Lines joined by line feeds. -/
def joinLines (ls : List Text) : Text := List.intercalate ['\n'] ls

/-- The instructions the lines write. -/
def sourceInstrs (ls : List SourceLine) : List Instr :=
  ls.filterMap (fun l => match l with
    | .instr l => some (l.mnemonic.instr (BitVec.ofNat 33 (digitsValue l.digits)))
    | .blank _ _ => none)

/-- The IR entries of the lines. -/
def sourceIr (ls : List SourceLine) : List IrEntry :=
  ls.filterMap (fun l => match l with
    | .instr l => some { mnemonic := mnemonicText l.mnemonic, argument := (digitsValue l.digits : Int) }
    | .blank _ _ => none)

end Sys2Proof.Machine
end

