-- ==== Sys2Proof/Certificates/Slice0/Obligations.lean ====
section
/-! DEFINITION. The statements for the provers. Each docstring names the rule of spec/ it formalises. -/

open Sys2Proof Sys2Proof.Machine

/-! ### The instruction word, the encoder and the decoder -/

/-- 30_encoding.md R71: the value of five bytes, the lowest `IMEM` address least significant. -/
def Obligations.LittleEndianWordValue : Prop :=
  ∀ (b0 b1 b2 b3 b4 : Byte),
    (leWord b0 b1 b2 b3 b4).toNat
        = b0.toNat + b1.toNat * 2 ^ 8 + b2.toNat * 2 ^ 16 + b3.toNat * 2 ^ 24 + b4.toNat * 2 ^ 32 ∧
      (leWord b0 b1 b2 b3 b4).toNat < 2 ^ 40 ∧
      ∀ (imem : List Byte) (pc : Nat), imem.drop (5 * pc) = b0 :: b1 :: b2 :: b3 :: b4 :: imem.drop (5 * pc + 5) →
        ifetch imem pc = some (leWord b0 b1 b2 b3 b4)

/-- 30_encoding.md R77: the split is `(value[6:0], value[39:7])`, total, unchecked and a bijection; high operand bits
give operands of 2^26 and more. -/
def Obligations.FieldSplitIsBijection : Prop :=
  (∀ w : Word, (splitWord w).1.toNat = w.toNat % 2 ^ 7 ∧ (splitWord w).2.toNat = w.toNat / 2 ^ 7) ∧
    Function.Bijective splitWord ∧
    (∀ w : Word, w.extractLsb' 33 7 ≠ 0 → 2 ^ 26 ≤ (splitWord w).2.toNat)

/-- 30_encoding.md R74: the encoder on every pair of integers. -/
def Obligations.EncoderPortOnAllIntegers : Prop :=
  ∀ opcode operand : Int,
    ((0 ≤ opcode ∧ opcode < 128) ∧ (0 ≤ operand ∧ operand < 2 ^ 26) →
      ∃ w : Nat, (w : Int) = opcode + operand * 2 ^ 7 ∧ w < 2 ^ 33 ∧
        encodePort opcode operand = .ok [BitVec.ofNat 8 w, BitVec.ofNat 8 (w / 2 ^ 8), BitVec.ofNat 8 (w / 2 ^ 16),
          BitVec.ofNat 8 (w / 2 ^ 24), BitVec.ofNat 8 (w / 2 ^ 32)]) ∧
    (¬ ((0 ≤ opcode ∧ opcode < 128) ∧ (0 ≤ operand ∧ operand < 2 ^ 26)) →
      encodePort opcode operand = .error ⟨opcode, operand⟩)

/-- 30_encoding.md R75: every encoded word has `value[39:33] = 0`, that is `w4[7:1] = 0`. -/
def Obligations.EncodedWordsHaveZeroHighBits : Prop :=
  ∀ (opcode operand : Int) (bytes : List Byte), encodePort opcode operand = .ok bytes →
    ∃ b0 b1 b2 b3 b4 : Byte, bytes = [b0, b1, b2, b3, b4] ∧
      (leWord b0 b1 b2 b3 b4).extractLsb' 33 7 = 0 ∧ b4.extractLsb' 1 7 = 0

/-- 30_encoding.md R76: the decoder, length first, then the four-way case on the opcode field. -/
def Obligations.DecoderPortOnAllBytes : Prop :=
  (∀ bytes : List Byte, bytes.length ≠ 5 → decode bytes = .error (.badLength bytes.length)) ∧
    (∀ b0 b1 b2 b3 b4 : Byte,
      decode [b0, b1, b2, b3, b4] =
        if (splitWord (leWord b0 b1 b2 b3 b4)).1 = 14 then .ok (.loadConst (splitWord (leWord b0 b1 b2 b3 b4)).2)
        else if (splitWord (leWord b0 b1 b2 b3 b4)).1 = 11 then .ok (.readValue (splitWord (leWord b0 b1 b2 b3 b4)).2)
        else if (splitWord (leWord b0 b1 b2 b3 b4)).1 = 94 then .ok (.writeValue (splitWord (leWord b0 b1 b2 b3 b4)).2)
        else if (splitWord (leWord b0 b1 b2 b3 b4)).1 = 69 then .ok (.less (splitWord (leWord b0 b1 b2 b3 b4)).2)
        else .error (.unknownOpcode (splitWord (leWord b0 b1 b2 b3 b4)).1))

/-- 30_encoding.md R82: the 124 other opcode values are illegal; decoding raises, and the interpreter halts. -/
def Obligations.OtherOpcodesAreIllegal : Prop :=
  ((List.range 128).filter (fun a => a ≠ 11 ∧ a ≠ 14 ∧ a ≠ 69 ∧ a ≠ 94)).length = 124 ∧
    ∀ w : Word, w.toNat % 128 ≠ 11 → w.toNat % 128 ≠ 14 → w.toNat % 128 ≠ 69 → w.toNat % 128 ≠ 94 →
      decodeWord w = .error (splitWord w).1 ∧
        decode (wordBytes w) = .error (.unknownOpcode (splitWord w).1) ∧
        ∀ s : State, s.Fetches w → ∃ t, step s = .next t ∧ t.status.state = .haltedError ∧
          t.status.cause = .decodingError

/-- 30_encoding.md R78: the round trips, at the level of fields and at the level of names. -/
def Obligations.EncoderDecoderRoundTrip : Prop :=
  (∀ (a b : Nat), a < 128 → b < 2 ^ 26 →
    ∃ b0 b1 b2 b3 b4 : Byte, encodePort (a : Int) (b : Int) = .ok [b0, b1, b2, b3, b4] ∧
      splitWord (leWord b0 b1 b2 b3 b4) = (BitVec.ofNat 7 a, BitVec.ofNat 33 b) ∧
      (∀ m : Mnemonic, m.opcode = BitVec.ofNat 7 a →
        decode [b0, b1, b2, b3, b4] = .ok (m.instr (BitVec.ofNat 33 b))) ∧
      (a ≠ 14 ∧ a ≠ 11 ∧ a ≠ 94 ∧ a ≠ 69 →
        decode [b0, b1, b2, b3, b4] = .error (.unknownOpcode (BitVec.ofNat 7 a)))) ∧
    (∀ b0 b1 b2 b3 b4 : Byte, (leWord b0 b1 b2 b3 b4).extractLsb' 33 7 = 0 →
      encodePort ((splitWord (leWord b0 b1 b2 b3 b4)).1.toNat : Int) ((splitWord (leWord b0 b1 b2 b3 b4)).2.toNat : Int)
        = .ok [b0, b1, b2, b3, b4])

/-- 30_encoding.md sections 2 and 3: decoding the bytes of any instruction, operand at its full 33 bits, gives it back;
no other bytes decode to it; and for a well-formed instruction those bytes are the encoder port's. -/
def Obligations.EveryInstructionDecodesBack : Prop :=
  ∀ i : Instr, decode (encode i) = .ok i ∧ (∀ bytes, decode bytes = .ok i → bytes = encode i) ∧
    (i.WellFormed → encodePort (i.opcode.toNat : Int) (i.operand.toNat : Int) = .ok (encode i))

/-- 30_encoding.md R79: instruction `k` of a program occupies bytes `5k .. 5k+4`, whatever follows. -/
def Obligations.ProgramWordsAreFetchedInOrder : Prop :=
  ∀ (p : List Instr) (tail : List Byte),
    (encodeProgram p).length = 5 * p.length ∧
    ∀ (k : Nat) (h : k < p.length), ifetch (encodeProgram p ++ tail) k = some (encodeWord p[k]) ∧
      decodeWord (encodeWord p[k]) = .ok p[k]

/-- The words of 95_test_vectors.md section 1 and of vectors DE3, DE4, DE7, DE8, DE13, DE14, written out from the format,
decode as the tables there say. -/
def Obligations.WrittenOutWordsDecode : Prop :=
  decode [0x8E, 0xBE, 0x00, 0x00, 0x00] = .ok (.loadConst 381) ∧
    decode [0x8B, 0xD9, 0x00, 0x00, 0x00] = .ok (.readValue 435) ∧
    decode [0x5E, 0x9A, 0x00, 0x00, 0x00] = .ok (.writeValue 308) ∧
    decode [0xC5, 0xEE, 0x01, 0x00, 0x00] = .ok (.less 989) ∧
    decode [0x0E, 0x00, 0x00, 0x00, 0x02] = .ok (.loadConst 67108864) ∧
    decode [0x8E, 0xFF, 0xFF, 0xFF, 0xFF] = .ok (.loadConst 8589934591) ∧
    decode [0x45, 0x00, 0x00, 0x00, 0x80] = .ok (.less 4294967296) ∧
    decode [0x01, 0x00, 0x00, 0x00, 0x00] = .error (.unknownOpcode 1) ∧
    decode [0xFF, 0xFF, 0xFF, 0xFF, 0xFF] = .error (.unknownOpcode 127) ∧
    decode [0x0E, 0x00, 0x00, 0x00] = .error (.badLength 4)

/-! ### The instructions -/

/-- 41_data_transfer.md R130: encoding, `ACC <- B` exactly, no exception, nothing else changed, and the example. -/
def Obligations.LoadConstLoadsOperand : Prop :=
  (∀ w : Word, (splitWord w).1 = 14 → decodeWord w = .ok (.loadConst (splitWord w).2)) ∧
    (∀ (b : Operand) (s : State), ∃ v : Cell, v.toInt = (b.toNat : Int) ∧
      exec (.loadConst b) s = .next { s with acc := v }) ∧
    (∃ i, decode [0x8E, 0xBE, 0x00, 0x00, 0x00] = .ok i ∧ ∀ s : State, exec i s = .next { s with acc := 381 })

/-- 41_data_transfer.md R131: encoding, `ACC <- DMEM[B]`, the `MemoryAccessError` halt with every other part of the state
as it was, `MEM_INIT` values copied as they are, and the example. -/
def Obligations.ReadValueLoadsCell : Prop :=
  (∀ w : Word, (splitWord w).1 = 11 → decodeWord w = .ok (.readValue (splitWord w).2)) ∧
    (∀ (b : Operand) (s : State), b.toNat < s.memSize →
      exec (.readValue b) s = .next { s with acc := s.dmem.read b.toNat }) ∧
    (∀ (b : Operand) (s : State), s.memSize ≤ b.toNat →
      exec (.readValue b) s = .next { s with
        status := { state := .haltedError, cause := .memoryAccessError, faultPc := s.pc, faultInfo := b }
        log := s.log ++ [.error s.pc .memoryAccessError b, s.summary] }) ∧
    (∀ (size : Nat) (init : Nat → Int) (s : State) (b : Operand), launchState size init = .next s → b.toNat < size →
      ∃ v : Cell, v.toInt = init b.toNat ∧ exec (.readValue b) s = .next { s with acc := v }) ∧
    (∃ i, decode [0x0B, 0x05, 0x00, 0x00, 0x00] = .ok i ∧
      ∀ s : State, 10 < s.memSize → s.dmem.read 10 = 1 → exec i s = .next { s with acc := 1 })

/-- 41_data_transfer.md R132: encoding, `DMEM[B] <- ACC`, the `MemoryAccessError` halt, storing a cell's own value changes
nothing, a later read or comparison sees the stored value, and the example. -/
def Obligations.WriteValueStoresAccumulator : Prop :=
  (∀ w : Word, (splitWord w).1 = 94 → decodeWord w = .ok (.writeValue (splitWord w).2)) ∧
    (∀ (b : Operand) (s : State), b.toNat < s.memSize →
      ∃ m : Memory, exec (.writeValue b) s = .next { s with dmem := m } ∧ m.read b.toNat = s.acc ∧
        ∀ a, a ≠ b.toNat → m.read a = s.dmem.read a) ∧
    (∀ (b : Operand) (s : State), s.memSize ≤ b.toNat →
      exec (.writeValue b) s = .next { s with
        status := { state := .haltedError, cause := .memoryAccessError, faultPc := s.pc, faultInfo := b }
        log := s.log ++ [.error s.pc .memoryAccessError b, s.summary] }) ∧
    (∀ (b : Operand) (s : State), b.toNat < s.memSize → s.dmem.wf → s.dmem.read b.toNat = s.acc →
      exec (.writeValue b) s = .next s) ∧
    (∀ (b : Operand) (s t : State) (v : Cell), b.toNat < s.memSize → exec (.writeValue b) s = .next t →
      exec (.readValue b) { t with acc := v } = .next { t with acc := s.acc } ∧
      ∃ m : Memory, exec (.less b) { t with acc := v } = .next { t with acc := v, dmem := m } ∧
        m.read b.toNat = if s.acc.toInt < v.toInt then 1 else 0) ∧
    (∃ i, decode [0x5E, 0x00, 0x00, 0x00, 0x00] = .ok i ∧
      ∀ s : State, 0 < s.memSize → s.acc = 5 → ∃ m : Memory, exec i s = .next { s with dmem := m } ∧ m.read 0 = 5)

/-- 42_compare.md R150 and R151: encoding, the strict signed comparison with the stored cell on the left, the
`MemoryAccessError` halt, running it twice, and the example. -/
def Obligations.LessComparesCellWithAccumulator : Prop :=
  (∀ w : Word, (splitWord w).1 = 69 → decodeWord w = .ok (.less (splitWord w).2)) ∧
    (∀ (b : Operand) (s : State), b.toNat < s.memSize →
      ∃ m : Memory, exec (.less b) s = .next { s with dmem := m } ∧
        m.read b.toNat = (if (s.dmem.read b.toNat).toInt < s.acc.toInt then 1 else 0) ∧
        ∀ a, a ≠ b.toNat → m.read a = s.dmem.read a) ∧
    (∀ (b : Operand) (s : State), s.memSize ≤ b.toNat →
      exec (.less b) s = .next { s with
        status := { state := .haltedError, cause := .memoryAccessError, faultPc := s.pc, faultInfo := b }
        log := s.log ++ [.error s.pc .memoryAccessError b, s.summary] }) ∧
    (∀ (b : Operand) (s t u : State), b.toNat < s.memSize → exec (.less b) s = .next t → exec (.less b) t = .next u →
      (1 < s.acc.toInt → u.dmem.read b.toNat = 1) ∧ (s.acc.toInt ≤ 0 → u.dmem.read b.toNat = 0)) ∧
    (∃ i, decode [0x45, 0x00, 0x00, 0x00, 0x00] = .ok i ∧
      ∀ s : State, 0 < s.memSize → s.dmem.read 0 = 5 → s.acc = 3 →
        ∃ m : Memory, exec i s = .next { s with dmem := m } ∧ m.read 0 = 0)

/-- The frame of the forms that store nothing, load_const and read_value (41_data_transfer.md): only `ACC`, and on a
memory error only `STATUS` and the log. -/
def Obligations.RegisterFormsFrame : Prop :=
  ∀ (i : Instr) (b : Operand) (s t : State), i = .loadConst b ∨ i = .readValue b → exec i s = .next t →
    t.pc = s.pc ∧ t.memSize = s.memSize ∧ t.imem = s.imem ∧ t.n = s.n ∧ t.stack = s.stack ∧
      (∀ a, t.dmem.read a = s.dmem.read a) ∧
      (outsideMemory s.memSize i = false → t.status = s.status ∧ t.log = s.log) ∧
      (outsideMemory s.memSize i = true → t.acc = s.acc)

/-- The frame of the storing forms, write_value and less (41_data_transfer.md, 42_compare.md): only the cell at the
operand's address, and on a memory error no cell, only `STATUS` and the log. -/
def Obligations.StoringFormsFrame : Prop :=
  ∀ (i : Instr) (b : Operand) (s t : State), i = .writeValue b ∨ i = .less b → exec i s = .next t →
    t.pc = s.pc ∧ t.memSize = s.memSize ∧ t.imem = s.imem ∧ t.n = s.n ∧ t.stack = s.stack ∧ t.acc = s.acc ∧
      (∀ a, a ≠ cellAddress b → t.dmem.read a = s.dmem.read a) ∧
      (outsideMemory s.memSize i = false → t.status = s.status ∧ t.log = s.log) ∧
      (outsideMemory s.memSize i = true → ∀ a, t.dmem.read a = s.dmem.read a)

/-- 00_scope.md R10 with 92_eei_decisions.md D1: where no address error is raised, each instruction does to the 64-bit
state exactly what the source's sentences do to unbounded integers; nothing is truncated. -/
def Obligations.CellsAgreeWithUnboundedIntegers : Prop :=
  ∀ (i : Instr) (s : State), outsideMemory s.memSize i = false →
    ∃ t, exec i s = .next t ∧ t.values.acc = (s.values.after i).acc ∧ ∀ a, t.values.cell a = (s.values.after i).cell a

/-! ### Data memory -/

/-- 20_memory.md R52 (and R51's bound): both access primitives, at valid and invalid addresses. -/
def Obligations.MemoryAccessPrimitives : Prop :=
  ∀ (b : Operand) (v : Cell) (s : State),
    (b.toNat < s.memSize → memRead b s = .ok (s.dmem.read b.toNat) ∧
      ∃ m : Memory, memWrite b v s = .ok { s with dmem := m } ∧ m.read b.toNat = v ∧
        ∀ a, a ≠ b.toNat → m.read a = s.dmem.read a) ∧
    (s.memSize ≤ b.toNat → memRead b s = .error ⟨b⟩ ∧ memWrite b v s = .error ⟨b⟩)

/-- Canonical memories that read alike are the same data (10_state.md R25: a memory is its cells). -/
def Obligations.CanonicalMemoryIsItsCells : Prop :=
  ∀ m m' : Memory, m.wf → m'.wf → (∀ a, m.read a = m'.read a) → m = m'

/-- 20_memory.md R55: for `PC < N` the fetch gives the five bytes at `5*PC .. 5*PC+4` and cannot fail. -/
def Obligations.FetchReadsFiveBytes : Prop :=
  ∀ s : State, s.Inv → s.pc < s.n →
    ∃ b0 b1 b2 b3 b4 : Byte, s.imem[5 * s.pc]? = some b0 ∧ s.imem[5 * s.pc + 1]? = some b1 ∧
      s.imem[5 * s.pc + 2]? = some b2 ∧ s.imem[5 * s.pc + 3]? = some b3 ∧ s.imem[5 * s.pc + 4]? = some b4 ∧
      ifetch s.imem s.pc = some (leWord b0 b1 b2 b3 b4)

/-! ### The step -/

/-- When the five bytes at the program counter decode to `i`, the step is `exec i` on the state with `i`'s trace entry
appended, and then, unless that halted the run, the program counter moves on by one (40_execution_loop.md section 1). -/
def Obligations.StepRunsDecodedInstruction : Prop :=
  ∀ (s : State) (i : Instr), s.status.state = .running → s.pc < s.n →
    decode ((s.imem.drop (5 * s.pc)).take 5) = .ok i →
    step s =
      match exec i { s with log := s.log ++ [.exec s.pc i.mnemonic i.operand s.acc] } with
      | .next t => .next (if t.status.state = .running then { t with pc := t.pc + 1 } else t)
      | .fault f => .fault f
      | .refused r => .refused r

/-- 40_execution_loop.md R111: the whole step of a running state that meets the invariant. -/
def Obligations.SequencerStep : Prop :=
  ∀ s : State, s.Inv → s.status.state = .running →
    (s.n ≤ s.pc → step s = .next { s with
      status := { s.status with state := .haltedNormal }, log := s.log ++ [s.summary] }) ∧
    (s.pc < s.n → ∃ w, ifetch s.imem s.pc = some w ∧
      (∀ a, decodeWord w = .error a → step s = .next { s with
        status := { state := .haltedError, cause := .decodingError, faultPc := s.pc, faultInfo := a.setWidth 33 }
        log := s.log ++ [.error s.pc .decodingError (a.setWidth 33), s.summary] }) ∧
      (∀ i, decodeWord w = .ok i → outsideMemory s.memSize i = true → step s = .next { s with
        status := { state := .haltedError, cause := .memoryAccessError, faultPc := s.pc, faultInfo := i.operand }
        log := s.log ++ [.exec s.pc i.mnemonic i.operand s.acc, .error s.pc .memoryAccessError i.operand, s.summary] }) ∧
      (∀ i, decodeWord w = .ok i → outsideMemory s.memSize i = false →
        ∃ t, exec i s = .next t ∧ step s = .next { t with
          pc := s.pc + 1, log := s.log ++ [.exec s.pc i.mnemonic i.operand s.acc] })) ∧
    (∀ t, step s = .next t → t.status.cause ≠ .dispatchError)

/-- 40_execution_loop.md R112: the loop guard, the normal end, and the zero-length bytecode. -/
def Obligations.NormalTermination : Prop :=
  (∀ s : State, s.Inv → s.status.state = .running →
    s.pc ≤ s.n ∧
    (s.pc < s.n → ∀ t, step s = .next t → t.status.state ≠ .haltedNormal) ∧
    (s.pc = s.n → step s = .next { s with
      status := { s.status with state := .haltedNormal }, log := s.log ++ [s.summary] })) ∧
  (∀ s : State, s.Fresh → ∃ t, execute [] s = .next t ∧ t.pc = 0 ∧ t.acc = s.acc ∧ t.status.state = .haltedNormal)

/-- 40_execution_loop.md R114: an illegal word halts with no `Exec` entry and nothing else changed. -/
def Obligations.DecodeFailureHalts : Prop :=
  ∀ (s : State) (w : Word) (a : OpField), s.Fetches w → decodeWord w = .error a →
    step s = .next { s with
      status := { state := .haltedError, cause := .decodingError, faultPc := s.pc, faultInfo := a.setWidth 33 }
      log := s.log ++ [.error s.pc .decodingError (a.setWidth 33), s.summary] }

/-- 40_execution_loop.md R115: the `Exec` entry comes first, with the accumulator as it was, also before a
`MemoryAccessError`. -/
def Obligations.TraceComesBeforeExecution : Prop :=
  ∀ (s : State) (w : Word) (i : Instr), s.Fetches w → decodeWord w = .ok i →
    ∃ t rest, step s = .next t ∧ t.log = s.log ++ [.exec s.pc i.mnemonic i.operand s.acc] ++ rest ∧
      (outsideMemory s.memSize i = false → rest = []) ∧
      (outsideMemory s.memSize i = true → rest = [.error s.pc .memoryAccessError i.operand, s.summary])

/-- 40_execution_loop.md R118: after dispatch the program counter moves on by exactly 1, unless the loop has halted. -/
def Obligations.ProgramCounterMovesByOne : Prop :=
  ∀ (s : State) (w : Word) (i : Instr), s.Fetches w → decodeWord w = .ok i →
    ∃ t, step s = .next t ∧ (t.status.state = .running → t.pc = s.pc + 1) ∧
      (t.status.state ≠ .running → t.pc = s.pc) ∧ (outsideMemory s.memSize i = false → t.status = s.status)

/-- 40_execution_loop.md R119: a `MemoryAccessError` becomes a halt with an error entry, `PC` not incremented. -/
def Obligations.MemoryErrorHalts : Prop :=
  ∀ (s : State) (w : Word) (i : Instr), s.Fetches w → decodeWord w = .ok i → outsideMemory s.memSize i = true →
    step s = .next { s with
      status := { state := .haltedError, cause := .memoryAccessError, faultPc := s.pc, faultInfo := i.operand }
      log := s.log ++ [.exec s.pc i.mnemonic i.operand s.acc, .error s.pc .memoryAccessError i.operand, s.summary] }

/-- 60_exceptions.md R164: the halt itself, and that every step that ends in it keeps `PC`, `ACC`, `DMEM` and `STACK`. -/
def Obligations.HaltIsPrecise : Prop :=
  (∀ (cause : Cause) (info : BitVec 33) (s : State), haltError cause info s = { s with
    status := { state := .haltedError, cause := cause, faultPc := s.pc, faultInfo := info }
    log := s.log ++ [.error s.pc cause info, .summary s.pc s.acc
      ((List.range (min 16 s.memSize)).map s.dmem.read)] }) ∧
  (∀ s t : State, step s = .next t → t.status.state = .haltedError →
    t.pc = s.pc ∧ t.acc = s.acc ∧ t.dmem = s.dmem ∧ t.stack = s.stack ∧ t.status.faultPc = s.pc)

/-- 60_exceptions.md R166: an ended run takes no step, its `STATUS` stays, and a new run needs a fresh state. -/
def Obligations.EndedRunIsFinal : Prop :=
  ∀ s : State, s.status.state ≠ .running →
    step s = .fault .runEnded ∧ (∀ k, runFrom k s = .next s) ∧ (∀ bytes, execute bytes s = .refused .notFresh)

/-- 60_exceptions.md R175 with R164 to R166: one level and no handler. Every step that ends in an error is the one halt,
which writes `STATUS` and the log and no other part of the state; nothing runs after it. -/
def Obligations.EveryErrorTakesTheOneHalt : Prop :=
  ∀ s t : State, step s = .next t → t.status.state = .haltedError →
    (∃ (cause : Cause) (info : BitVec 33) (before : List TraceEntry),
      (cause = .decodingError ∧ before = [] ∨
        cause = .memoryAccessError ∧ ∃ i : Instr, before = [.exec s.pc i.mnemonic i.operand s.acc]) ∧
      t = { s with
        status := { state := .haltedError, cause := cause, faultPc := s.pc, faultInfo := info }
        log := s.log ++ before ++ [.error s.pc cause info, s.summary] }) ∧
    step t = .fault .runEnded

/-- 60_exceptions.md R174 and R175: one mode and one level. Two running states that fetch the same word, with memories of
the same size, both complete the step or both halt with the same cause and recorded value, whatever else they hold. -/
def Obligations.ErrorsDependOnWordAndMemorySize : Prop :=
  ∀ (s u : State) (w : Word), s.Fetches w → u.Fetches w → s.memSize = u.memSize →
    ∃ t v, step s = .next t ∧ step u = .next v ∧ t.status.state = v.status.state ∧
      (t.status.state = .haltedError → t.status.cause = v.status.cause ∧ t.status.faultInfo = v.status.faultInfo)

/-- 10_state.md R26, R27, R28 and 40_execution_loop.md R125, over every step: `IMEM`, `N`, `MEM_SIZE` and `STACK` never
change, `PC` stays or moves on by one, and the log only grows. -/
def Obligations.NothingElseWritesControlState : Prop :=
  ∀ s t : State, step s = .next t →
    t.imem = s.imem ∧ t.n = s.n ∧ t.memSize = s.memSize ∧ t.stack = s.stack ∧ (t.pc = s.pc ∨ t.pc = s.pc + 1) ∧
      s.log <+: t.log ∧ s.log ≠ t.log

/-- 10_state.md R32: the log has no effect on computation: with another log the step does the same to the rest of the
state and appends the same entries. -/
def Obligations.LogHasNoEffect : Prop :=
  ∀ (s : State) (l : List TraceEntry),
    (∀ t, step s = .next t → ∃ added, t.log = s.log ++ added ∧
      step { s with log := l } = .next { t with log := l ++ added }) ∧
    (∀ f, step s = .fault f → step { s with log := l } = .fault f) ∧
    (∀ r, step s = .refused r → step { s with log := l } = .refused r)

/-! ### Invariants -/

/-- The state after reset meets the run invariant and the log shape (70_reset_and_hazards.md section 1). The reset's empty
bytecode and zero memory are the model's choice, notes/assumptions/3.md. -/
def Obligations.ResetMeetsInvariant : Prop := State.reset.Inv ∧ LogShape State.reset

/-- Every launch on a fresh state meets the run invariant and the log shape (70_reset_and_hazards.md section 1). -/
def Obligations.LaunchMeetsInvariant : Prop :=
  ∀ (s : State) (bytes : List Byte), s.Fresh → (s.loadBytecode bytes).Inv ∧ LogShape (s.loadBytecode bytes)

/-- Every step keeps the run invariant: canonical memory inside `MEM_SIZE`, `PC` in `0 .. N`, `STACK` empty, a legal
`STATUS` (10_state.md sections 3 to 7). -/
def Obligations.StepKeepsInvariant : Prop :=
  ∀ s t : State, s.Inv → step s = .next t → t.Inv

/-- Every step keeps the shape of the log that 40_execution_loop.md section 2 gives. -/
def Obligations.StepKeepsLogShape : Prop :=
  ∀ s t : State, s.Inv → LogShape s → step s = .next t → LogShape t

/-- 10_state.md section 2: from a state whose values a program can make, every step leads to such a state. -/
def Obligations.StepKeepsProgramMadeValues : Prop :=
  ∀ s t : State, s.AllProgramMade → step s = .next t → t.AllProgramMade

/-- 10_state.md section 3 with 92_eei_decisions.md D2: `PC`, `FAULT_PC` and `N` fit every register width that can hold
`N`, after every step, so that no wrap is ever seen. -/
def Obligations.ProgramCounterFitsAnyWidth : Prop :=
  ∀ (width : Nat) (s t : State), s.Inv → s.n < 2 ^ width → step s = .next t →
    t.pc < 2 ^ width ∧ t.status.faultPc < 2 ^ width ∧ t.n < 2 ^ width

/-! ### Launch and whole runs -/

/-- 70_reset_and_hazards.md R190: the state a run starts from. -/
def Obligations.LaunchStateValues : Prop :=
  ∀ (size : Nat) (init : Nat → Int) (s : State) (bytes : List Byte), launchState size init = .next s →
    (s.loadBytecode bytes).pc = 0 ∧ (s.loadBytecode bytes).acc = 0 ∧ (s.loadBytecode bytes).memSize = size ∧
    (∀ a, a < size → ((s.loadBytecode bytes).dmem.read a).toInt = init a) ∧
    (s.loadBytecode bytes).stack = [] ∧ (s.loadBytecode bytes).imem = bytes ∧
    (s.loadBytecode bytes).n = bytes.length / 5 ∧
    (s.loadBytecode bytes).status = { state := .running, cause := .none, faultPc := 0, faultInfo := 0 } ∧
    (s.loadBytecode bytes).log = []

/-- 70_reset_and_hazards.md section 1 with 92_eei_decisions.md D5, D10, D20: what a launch accepts and what it refuses. -/
def Obligations.LaunchContract : Prop :=
  (∀ (size : Nat) (init : Nat → Int),
    (1 ≤ size → (∀ a, a < size → -2 ^ 63 ≤ init a ∧ init a < 2 ^ 63) → ∃ s, launchState size init = .next s ∧ s.Fresh) ∧
    (size = 0 → launchState size init = .refused .memSizeZero) ∧
    (∀ a, a < size → ¬ (-2 ^ 63 ≤ init a ∧ init a < 2 ^ 63) → launchState size init = .refused .cellOutOfRange)) ∧
  (∀ (bytes : List Byte) (s : State), ¬ s.Fresh → execute bytes s = .refused .notFresh)

/-- 70_reset_and_hazards.md R195: a bytecode of fewer than 5 bytes ends at its first step. -/
def Obligations.EmptyProgramEndsAtOnce : Prop :=
  ∀ (bytes : List Byte) (s : State), bytes.length < 5 → s.Fresh →
    (∃ t, step (s.loadBytecode bytes) = .next t ∧ execute bytes s = .next t ∧ t.status.state = .haltedNormal ∧
      t.pc = 0 ∧ t.acc = 0 ∧ t.dmem = s.dmem ∧ t.log = [t.summary])

/-- 40_execution_loop.md R122: the trailing bytes change neither `N` nor anything of the run. -/
def Obligations.TrailingFragmentIsIgnored : Prop :=
  ∀ (bytes tail : List Byte) (s t : State), bytes.length % 5 = 0 → tail.length < 5 → execute bytes s = .next t →
    instrCount (bytes ++ tail) = instrCount bytes ∧
      ∃ u, execute (bytes ++ tail) s = .next u ∧ u.observe = t.observe

/-- 40_execution_loop.md R124: a step ends the run or increments `PC`, and every run has ended after at most `N + 1`
steps; none gets stuck. -/
def Obligations.EveryRunEnds : Prop :=
  (∀ s t : State, s.Inv → step s = .next t → t.status.state ≠ .running ∨ t.pc = s.pc + 1) ∧
  (∀ s : State, s.Inv → s.status.state = .running → s.pc = s.n → ∃ t, step s = .next t ∧ t.status.state ≠ .running) ∧
  (∀ (bytes : List Byte) (s : State), s.Fresh →
    ∃ t, runFrom (bytes.length / 5 + 1) (s.loadBytecode bytes) = .next t ∧ execute bytes s = .next t ∧
      t.status.state ≠ .running)

/-- 40_execution_loop.md sections 1 and 2, 60_exceptions.md section 3: the machine's run of any bytecode from any fresh
state ends where the source's loop over unbounded integers ends, with the same values, the same `STATUS`, and the log
shape of 40_execution_loop.md. -/
def Obligations.RunRefinesUnboundedInterpreter : Prop :=
  ∀ (bytes : List Byte) (s : State), s.Fresh →
    ∃ t, execute bytes s = .next t ∧
      t.pc = (referenceRun s.memSize 0 (windows bytes) s.values).pc ∧
      t.acc.toInt = (referenceRun s.memSize 0 (windows bytes) s.values).values.acc ∧
      (∀ a, (t.dmem.read a).toInt = (referenceRun s.memSize 0 (windows bytes) s.values).values.cell a) ∧
      t.status = (referenceRun s.memSize 0 (windows bytes) s.values).status ∧
      t.stack = [] ∧ t.memSize = s.memSize ∧ LogShape t

/-- 10_state.md section 10: the read-out of a range inside data memory. -/
def Obligations.ReadOutShowsState : Prop :=
  ∀ (s : State) (first count : Nat), first + count ≤ s.memSize →
    ∃ r, s.readOut first count = some r ∧ r.stack = s.stack ∧ r.pc = s.pc ∧ r.acc = s.acc ∧ r.status = s.status ∧
      r.cells.length = count ∧ ∀ k, k < count → r.cells[k]? = some (s.dmem.read (first + k))

/-! ### The assembler -/

/-- 30_encoding.md R89: the accepted integers and their values; a parse failure is a `SyntaxError`. -/
def Obligations.IntegerArgumentGrammar : Prop :=
  (∀ (t : Text) (v : Int), parseInteger t = some v ↔
    ∃ digits : Text, digits ≠ [] ∧ (∀ c ∈ digits, '0' ≤ c ∧ c ≤ '9') ∧
      ((t = digits ∨ t = '+' :: digits) ∧ v = (digitsValue digits : Int) ∨
       t = '-' :: digits ∧ v = -(digitsValue digits : Int))) ∧
  (∀ (line arg : Text), strip (dropComment line) ≠ [] → (splitArgument (strip (dropComment line))).2 = some arg →
    parseInteger arg = none →
    parseLine line = .error (.syntaxError (splitArgument (strip (dropComment line))).1))

/-- No non-empty argument is a `SyntaxError` naming the mnemonic (30_encoding.md R87, R88). Derived: that a line with
no `;` names the whole stripped line is the model's deduction from R87 and 95_test_vectors.md vectors A5 and A7,
notes/assumptions/16.md (DEDUCED); no rule states it. -/
def Obligations.MissingArgumentIsSyntaxError : Prop :=
  ∀ line : Text, strip (dropComment line) ≠ [] →
    (splitArgument (strip (dropComment line))).2 = none ∨ (splitArgument (strip (dropComment line))).2 = some [] →
    parseLine line = .error (.syntaxError (splitArgument (strip (dropComment line))).1)

/-- 30_encoding.md R92: lowering an entry of a known mnemonic fails exactly when the argument is outside
`0 .. 2^26-1`, with `EncodingError`; R91's lookup comes first. -/
def Obligations.LoweringOneEntry : Prop :=
  (∀ (m : Mnemonic) (arg : Int), 0 ≤ arg → arg < 2 ^ 26 →
    lowerEntry ⟨mnemonicText m, arg⟩ = .ok (encode (m.instr (BitVec.ofInt 33 arg))) ∧
    encodePort (m.opcode.toNat : Int) arg = .ok (encode (m.instr (BitVec.ofInt 33 arg)))) ∧
  (∀ (m : Mnemonic) (arg : Int), arg < 0 ∨ 2 ^ 26 ≤ arg →
    lowerEntry ⟨mnemonicText m, arg⟩ = .error (.encoding ⟨(m.opcode.toNat : Int), arg⟩)) ∧
  (∀ (t : Text) (arg : Int), (∀ m, mnemonicText m ≠ t) → lowerEntry ⟨t, arg⟩ = .error (.unknownMnemonic t))

/-- 30_encoding.md R93: all or nothing, and the first error in pass order. -/
def Obligations.FirstErrorIsReported : Prop :=
  (∀ (source line : Text) (before after : List Text) (e : AsmError),
    splitLines (strip source) = before ++ line :: after → (∀ l ∈ before, ∃ entry, parseLine l = .ok entry) →
    parseLine line = .error e → assemble source = .error e) ∧
  (∀ (source : Text) (before after : List IrEntry) (entry : IrEntry) (e : AsmError),
    parseLines (splitLines (strip source)) = .ok (before ++ entry :: after) →
    (∀ x ∈ before, ∃ bytes, lowerEntry x = .ok bytes) → lowerEntry entry = .error e → assemble source = .error e) ∧
  (∀ (m : Text) (arg : Int) (e : AsmError), lowerEntry ⟨m, arg⟩ = .error e → (∀ k, mnemonicText k ≠ m) →
    e = .unknownMnemonic m)

/-- 60_exceptions.md R172: white space alone is a warning; comments and blank lines alone are not. -/
def Obligations.EmptySourceIsAWarning : Prop :=
  (∀ source : Text, source.all isSpace = true →
    assemble source = .ok { bytecode := [], ir := [], nothingToAssemble := true }) ∧
  (∀ source : Text, source.all isSpace = false → (∀ l ∈ splitLines source, strip (dropComment l) = []) →
    assemble source = .ok { bytecode := [], ir := [], nothingToAssemble := false })

/-- 30_encoding.md section 6: source lines of the described shape, instructions and blank or comment lines mixed,
assemble to their IR and to the concatenation of their instructions' words. -/
def Obligations.AssembledSourceIsItsProgram : Prop :=
  ∀ lines : List SourceLine, (∀ l ∈ lines, l.Good) →
    ∃ r, assemble (joinLines (lines.map SourceLine.text)) = .ok r ∧ r.ir = sourceIr lines ∧
      r.bytecode = encodeProgram (sourceInstrs lines)
end

