-- ==== Sys2Proof/Laws/Memory.lean ====
section
/-! SUPPORT. Data memory as canonical data: what a read gives after a write, and that every memory operation keeps the
canonical form and the bound. -/

namespace Sys2Proof.Machine

@[simp] theorem Memory.read_nil (a : Nat) : Memory.read [] a = Memory.unlisted := rfl

theorem Memory.read_cons (c : Nat × Cell) (m : Memory) (a : Nat) :
    Memory.read (c :: m) a = if c.1 = a then c.2 else Memory.read m a := rfl

/-! ### Reads of an erased and of an inserted address -/

theorem Memory.read_erase (m : Memory) (a b : Nat) :
    (m.erase a).read b = if b = a then Memory.unlisted else m.read b := by
  induction m with
  | nil => simp [Memory.erase]
  | cons c m ih =>
    simp only [Memory.erase, List.filter_cons, bne_iff_ne] at ih ⊢
    by_cases h : c.1 = a <;> by_cases hb : b = a <;> simp_all [Memory.read_cons]
    omega

/-- An address that no pair names reads as unlisted. -/
theorem Memory.read_of_not_mem (m : Memory) (a : Nat) (h : ∀ c ∈ m, c.1 ≠ a) : m.read a = Memory.unlisted := by
  induction m with
  | nil => rfl
  | cons c m ih =>
    simp only [List.mem_cons, forall_eq_or_imp] at h
    simp [Memory.read_cons, h.1, ih h.2]

theorem Memory.ne_of_mem_erase {m : Memory} {a : Nat} {c : Nat × Cell} (h : c ∈ m.erase a) : c.1 ≠ a := by
  simpa using (List.mem_filter.1 h).2

theorem Memory.read_insert (m : Memory) (a b : Nat) (v : Cell) (h : ∀ c ∈ m, c.1 ≠ a) :
    (m.insert a v).read b = if b = a then v else m.read b := by
  induction m with
  | nil =>
    simp only [Memory.insert, Memory.read_cons]
    by_cases hb : b = a
    · simp [hb]
    · simp [hb, Ne.symm hb]
  | cons c m ih =>
    simp only [List.mem_cons, forall_eq_or_imp] at h
    simp only [Memory.insert]
    by_cases hb : b = a
    · subst hb
      split
      · simp [Memory.read_cons]
      · simpa [Memory.read_cons, h.1] using ih h.2
    · split
      · simp [Memory.read_cons, Ne.symm hb]
      · simp [Memory.read_cons, ih h.2, hb]

/-- Everything a write does to reads, for any memory and any address. -/
theorem Memory.read_write (m : Memory) (a b : Nat) (v : Cell) :
    (m.write a v).read b = if b = a then v else m.read b := by
  unfold Memory.write
  split
  · simp_all [Memory.read_erase]
  · rw [Memory.read_insert _ _ _ _ (fun c hc => Memory.ne_of_mem_erase hc), Memory.read_erase]
    split <;> simp_all

/-! ### The canonical form is kept -/

theorem Memory.mem_insert {m : Memory} {a : Nat} {v : Cell} {c : Nat × Cell} :
    c ∈ m.insert a v ↔ c = (a, v) ∨ c ∈ m := by
  induction m with
  | nil => simp [Memory.insert]
  | cons d m ih =>
    simp only [Memory.insert]
    split
    · simp
    · simp [ih]; tauto

theorem Memory.erase_wf {m : Memory} (h : m.wf) (a : Nat) : (m.erase a).wf :=
  ⟨h.1.filter _, fun c hc => h.2 c (List.mem_filter.1 hc).1⟩

theorem Memory.insert_rising {m : Memory} {a : Nat} (v : Cell) (h : m.Pairwise (fun c d => c.1 < d.1))
    (ha : ∀ c ∈ m, c.1 ≠ a) : (m.insert a v).Pairwise (fun c d => c.1 < d.1) := by
  induction m with
  | nil => simp [Memory.insert]
  | cons d m ih =>
    simp only [List.mem_cons, forall_eq_or_imp] at ha
    rw [List.pairwise_cons] at h
    simp only [Memory.insert]
    split
    · rename_i hlt
      simp only [List.pairwise_cons, List.mem_cons, forall_eq_or_imp]
      exact ⟨⟨hlt, fun c hc => hlt.trans (h.1 c hc)⟩, h⟩
    · refine List.pairwise_cons.2 ⟨fun c hc => ?_, ih h.2 ha.2⟩
      rcases Memory.mem_insert.1 hc with rfl | hc
      · have := ha.1; simp only; omega
      · exact h.1 c hc

/-- A write keeps the canonical form. -/
theorem Memory.write_wf {m : Memory} (h : m.wf) (a : Nat) (v : Cell) : (m.write a v).wf := by
  unfold Memory.write
  split
  · exact Memory.erase_wf h a
  · rename_i hv
    refine ⟨Memory.insert_rising v (Memory.erase_wf h a).1 (fun c hc => Memory.ne_of_mem_erase hc), fun c hc => ?_⟩
    rcases Memory.mem_insert.1 hc with rfl | hc
    · exact hv
    · exact (Memory.erase_wf h a).2 c hc

/-- A write below the bound keeps the bound. -/
theorem Memory.write_bounded {m : Memory} {size a : Nat} (h : m.Bounded size) (ha : a < size) (v : Cell) :
    (m.write a v).Bounded size := by
  intro c hc
  unfold Memory.write at hc
  split at hc
  · exact h c (List.mem_filter.1 hc).1
  · rcases Memory.mem_insert.1 hc with rfl | hc
    · exact ha
    · exact h c (List.mem_filter.1 hc).1

/-- The initial memory is canonical. -/
theorem Memory.ofFn_wf (size : Nat) (f : Nat → Cell) : (Memory.ofFn size f).wf := by
  refine ⟨List.Pairwise.filter _ ?_, fun c hc => by simpa [Memory.ofFn] using (List.mem_filter.1 hc).2⟩
  exact List.pairwise_map.2 List.pairwise_lt_range

/-- The initial memory lists no cell that does not exist. -/
theorem Memory.ofFn_bounded (size : Nat) (f : Nat → Cell) : (Memory.ofFn size f).Bounded size := by
  intro c hc
  simp only [Memory.ofFn, List.mem_filter, List.mem_map, List.mem_range] at hc
  obtain ⟨⟨a, ha, rfl⟩, -⟩ := hc
  exact ha

/-- Reset's memory is canonical. -/
theorem State.reset_dmem_wf : State.reset.dmem.wf := ⟨List.Pairwise.nil, by simp [State.reset]⟩

end Sys2Proof.Machine
end

