-- ==== Sys2Proof/Laws/Word.lean ====
section
/-! SUPPORT. The bytes and fields of an instruction word as numbers, and the opcode table read in both directions. -/

namespace Sys2Proof.Laws

/-- Concatenation as arithmetic. -/
theorem append_toNat {m n : Nat} (a : BitVec m) (b : BitVec n) : (a ++ b).toNat = a.toNat * 2 ^ n + b.toNat := by
  rw [BitVec.toNat_append, ← Nat.shiftLeft_add_eq_or_of_lt b.isLt, Nat.shiftLeft_eq]

/-- The word with given fields, as a number. -/
theorem joinWord_toNat (a : OpField) (b : Operand) : (joinWord a b).toNat = b.toNat * 2 ^ 7 + a.toNat :=
  append_toNat b a

/-- The opcode field, as a number. -/
theorem splitWord_fst_toNat (w : Word) : (splitWord w).1.toNat = w.toNat % 2 ^ 7 := by
  simp [splitWord, BitVec.extractLsb'_toNat]

/-- The operand field, as a number. -/
theorem splitWord_snd_toNat (w : Word) : (splitWord w).2.toNat = w.toNat / 2 ^ 7 := by
  have := w.isLt
  simp only [splitWord, BitVec.extractLsb'_toNat, Nat.shiftRight_eq_div_pow]
  omega

/-- A word is known by its fields. -/
theorem splitWord_injective : Function.Injective splitWord := by
  intro v w h
  apply BitVec.eq_of_toNat_eq
  have h1 := splitWord_fst_toNat v
  have h2 := splitWord_fst_toNat w
  have h3 := splitWord_snd_toNat v
  have h4 := splitWord_snd_toNat w
  rw [h] at h1 h3
  omega

/-- Splitting a joined word gives its fields back. -/
theorem splitWord_joinWord (a : OpField) (b : Operand) : splitWord (joinWord a b) = (a, b) := by
  have ha := a.isLt
  refine Prod.ext (BitVec.eq_of_toNat_eq ?_) (BitVec.eq_of_toNat_eq ?_)
  · simp only [splitWord_fst_toNat, joinWord_toNat]; omega
  · simp only [splitWord_snd_toNat, joinWord_toNat]; omega

/-- A byte of a word, as a number. -/
theorem wordByte_toNat (w : Word) (k : Nat) : (wordByte w k).toNat = w.toNat / 2 ^ (8 * k) % 2 ^ 8 := by
  simp [wordByte, BitVec.extractLsb'_toNat, Nat.shiftRight_eq_div_pow]

/-- The opcode table is read the same way in both directions. -/
theorem opcodeName_opcode (m : Mnemonic) : opcodeName m.opcode = some m := by cases m <;> decide

/-- An instruction is its name and its operand. -/
theorem mnemonic_instr_operand (i : Instr) : i.mnemonic.instr i.operand = i := by cases i <;> rfl

end Sys2Proof.Laws
end

