-- ==== Sys2Proof/Laws/PerInstr.lean ====
section
/-! SUPPORT. Families of statements made per instruction: WordFields says that an instruction's word has exactly the
instruction's two fields, and that its encoding is five bytes. -/

namespace Sys2Proof.Laws

/-- The word of `i` has the fields of `i`, and `encode i` is five bytes (30_encoding.md R70, R72). -/
def WordFields.Statement (i : Instr) : Prop :=
  splitWord (encodeWord i) = (i.opcode, i.operand) ∧ (encode i).length = Config.wordBytes

theorem WordFields.loadConst (b : Operand) : WordFields.Statement (.loadConst b) := ⟨splitWord_joinWord _ _, rfl⟩
theorem WordFields.readValue (b : Operand) : WordFields.Statement (.readValue b) := ⟨splitWord_joinWord _ _, rfl⟩
theorem WordFields.writeValue (b : Operand) : WordFields.Statement (.writeValue b) := ⟨splitWord_joinWord _ _, rfl⟩
theorem WordFields.less (b : Operand) : WordFields.Statement (.less b) := ⟨splitWord_joinWord _ _, rfl⟩

end Sys2Proof.Laws
end

