-- ==== Sys2Proof/Laws/State.lean ====
section
/-! SUPPORT. One lemma per field per update of State, and the fields of State.reset, so that no later proof unfolds a
record update. -/

namespace Sys2Proof.Machine

/-! ### setAcc -/

@[simp] theorem State.setAcc_acc (s : State) (v : Cell) : (s.setAcc v).acc = v := rfl
@[simp] theorem State.setAcc_pc (s : State) (v : Cell) : (s.setAcc v).pc = s.pc := rfl
@[simp] theorem State.setAcc_dmem (s : State) (v : Cell) : (s.setAcc v).dmem = s.dmem := rfl
@[simp] theorem State.setAcc_memSize (s : State) (v : Cell) : (s.setAcc v).memSize = s.memSize := rfl
@[simp] theorem State.setAcc_imem (s : State) (v : Cell) : (s.setAcc v).imem = s.imem := rfl
@[simp] theorem State.setAcc_n (s : State) (v : Cell) : (s.setAcc v).n = s.n := rfl
@[simp] theorem State.setAcc_stack (s : State) (v : Cell) : (s.setAcc v).stack = s.stack := rfl
@[simp] theorem State.setAcc_status (s : State) (v : Cell) : (s.setAcc v).status = s.status := rfl
@[simp] theorem State.setAcc_log (s : State) (v : Cell) : (s.setAcc v).log = s.log := rfl

/-! ### setPc -/

@[simp] theorem State.setPc_acc (s : State) (v : Nat) : (s.setPc v).acc = s.acc := rfl
@[simp] theorem State.setPc_pc (s : State) (v : Nat) : (s.setPc v).pc = v := rfl
@[simp] theorem State.setPc_dmem (s : State) (v : Nat) : (s.setPc v).dmem = s.dmem := rfl
@[simp] theorem State.setPc_memSize (s : State) (v : Nat) : (s.setPc v).memSize = s.memSize := rfl
@[simp] theorem State.setPc_imem (s : State) (v : Nat) : (s.setPc v).imem = s.imem := rfl
@[simp] theorem State.setPc_n (s : State) (v : Nat) : (s.setPc v).n = s.n := rfl
@[simp] theorem State.setPc_stack (s : State) (v : Nat) : (s.setPc v).stack = s.stack := rfl
@[simp] theorem State.setPc_status (s : State) (v : Nat) : (s.setPc v).status = s.status := rfl
@[simp] theorem State.setPc_log (s : State) (v : Nat) : (s.setPc v).log = s.log := rfl

/-! ### setDmem -/

@[simp] theorem State.setDmem_acc (s : State) (v : Memory) : (s.setDmem v).acc = s.acc := rfl
@[simp] theorem State.setDmem_pc (s : State) (v : Memory) : (s.setDmem v).pc = s.pc := rfl
@[simp] theorem State.setDmem_dmem (s : State) (v : Memory) : (s.setDmem v).dmem = v := rfl
@[simp] theorem State.setDmem_memSize (s : State) (v : Memory) : (s.setDmem v).memSize = s.memSize := rfl
@[simp] theorem State.setDmem_imem (s : State) (v : Memory) : (s.setDmem v).imem = s.imem := rfl
@[simp] theorem State.setDmem_n (s : State) (v : Memory) : (s.setDmem v).n = s.n := rfl
@[simp] theorem State.setDmem_stack (s : State) (v : Memory) : (s.setDmem v).stack = s.stack := rfl
@[simp] theorem State.setDmem_status (s : State) (v : Memory) : (s.setDmem v).status = s.status := rfl
@[simp] theorem State.setDmem_log (s : State) (v : Memory) : (s.setDmem v).log = s.log := rfl

/-! ### setStatus -/

@[simp] theorem State.setStatus_acc (s : State) (v : Status) : (s.setStatus v).acc = s.acc := rfl
@[simp] theorem State.setStatus_pc (s : State) (v : Status) : (s.setStatus v).pc = s.pc := rfl
@[simp] theorem State.setStatus_dmem (s : State) (v : Status) : (s.setStatus v).dmem = s.dmem := rfl
@[simp] theorem State.setStatus_memSize (s : State) (v : Status) : (s.setStatus v).memSize = s.memSize := rfl
@[simp] theorem State.setStatus_imem (s : State) (v : Status) : (s.setStatus v).imem = s.imem := rfl
@[simp] theorem State.setStatus_n (s : State) (v : Status) : (s.setStatus v).n = s.n := rfl
@[simp] theorem State.setStatus_stack (s : State) (v : Status) : (s.setStatus v).stack = s.stack := rfl
@[simp] theorem State.setStatus_status (s : State) (v : Status) : (s.setStatus v).status = v := rfl
@[simp] theorem State.setStatus_log (s : State) (v : Status) : (s.setStatus v).log = s.log := rfl

/-! ### trace -/

@[simp] theorem State.trace_acc (s : State) (v : TraceEntry) : (s.trace v).acc = s.acc := rfl
@[simp] theorem State.trace_pc (s : State) (v : TraceEntry) : (s.trace v).pc = s.pc := rfl
@[simp] theorem State.trace_dmem (s : State) (v : TraceEntry) : (s.trace v).dmem = s.dmem := rfl
@[simp] theorem State.trace_memSize (s : State) (v : TraceEntry) : (s.trace v).memSize = s.memSize := rfl
@[simp] theorem State.trace_imem (s : State) (v : TraceEntry) : (s.trace v).imem = s.imem := rfl
@[simp] theorem State.trace_n (s : State) (v : TraceEntry) : (s.trace v).n = s.n := rfl
@[simp] theorem State.trace_stack (s : State) (v : TraceEntry) : (s.trace v).stack = s.stack := rfl
@[simp] theorem State.trace_status (s : State) (v : TraceEntry) : (s.trace v).status = s.status := rfl
@[simp] theorem State.trace_log (s : State) (v : TraceEntry) : (s.trace v).log = s.log ++ [v] := rfl

/-! ### Reset -/

@[simp] theorem State.reset_acc : State.reset.acc = 0 := rfl
@[simp] theorem State.reset_pc : State.reset.pc = 0 := rfl
@[simp] theorem State.reset_dmem : State.reset.dmem = [] := rfl
@[simp] theorem State.reset_memSize : State.reset.memSize = Config.defaultMemSize := rfl
@[simp] theorem State.reset_imem : State.reset.imem = [] := rfl
@[simp] theorem State.reset_n : State.reset.n = 0 := rfl
@[simp] theorem State.reset_stack : State.reset.stack = [] := rfl
@[simp] theorem State.reset_status : State.reset.status = Status.reset := rfl
@[simp] theorem State.reset_log : State.reset.log = [] := rfl

/-! ### The halts, the trace and the increment -/

@[simp] theorem haltError_acc (cause : Cause) (info : BitVec 33) (s : State) :
    (haltError cause info s).acc = s.acc := rfl
@[simp] theorem haltError_pc (cause : Cause) (info : BitVec 33) (s : State) :
    (haltError cause info s).pc = s.pc := rfl
@[simp] theorem haltError_dmem (cause : Cause) (info : BitVec 33) (s : State) :
    (haltError cause info s).dmem = s.dmem := rfl
@[simp] theorem haltError_memSize (cause : Cause) (info : BitVec 33) (s : State) :
    (haltError cause info s).memSize = s.memSize := rfl
@[simp] theorem haltError_imem (cause : Cause) (info : BitVec 33) (s : State) :
    (haltError cause info s).imem = s.imem := rfl
@[simp] theorem haltError_n (cause : Cause) (info : BitVec 33) (s : State) :
    (haltError cause info s).n = s.n := rfl
@[simp] theorem haltError_stack (cause : Cause) (info : BitVec 33) (s : State) :
    (haltError cause info s).stack = s.stack := rfl
@[simp] theorem haltError_status (cause : Cause) (info : BitVec 33) (s : State) :
    (haltError cause info s).status = { state := .haltedError, cause := cause, faultPc := s.pc, faultInfo := info } := rfl
@[simp] theorem haltError_log (cause : Cause) (info : BitVec 33) (s : State) :
    (haltError cause info s).log = s.log ++ [.error s.pc cause info] ++ [s.summary] := rfl
@[simp] theorem haltNormal_acc (s : State) : (haltNormal s).acc = s.acc := rfl
@[simp] theorem haltNormal_pc (s : State) : (haltNormal s).pc = s.pc := rfl
@[simp] theorem haltNormal_dmem (s : State) : (haltNormal s).dmem = s.dmem := rfl
@[simp] theorem haltNormal_memSize (s : State) : (haltNormal s).memSize = s.memSize := rfl
@[simp] theorem haltNormal_imem (s : State) : (haltNormal s).imem = s.imem := rfl
@[simp] theorem haltNormal_n (s : State) : (haltNormal s).n = s.n := rfl
@[simp] theorem haltNormal_stack (s : State) : (haltNormal s).stack = s.stack := rfl
@[simp] theorem haltNormal_status (s : State) : (haltNormal s).status = { s.status with state := .haltedNormal } := rfl
@[simp] theorem haltNormal_log (s : State) : (haltNormal s).log = s.log ++ [s.summary] := rfl
@[simp] theorem traceExec_acc (i : Instr) (s : State) : (traceExec i s).acc = s.acc := rfl
@[simp] theorem traceExec_pc (i : Instr) (s : State) : (traceExec i s).pc = s.pc := rfl
@[simp] theorem traceExec_dmem (i : Instr) (s : State) : (traceExec i s).dmem = s.dmem := rfl
@[simp] theorem traceExec_memSize (i : Instr) (s : State) : (traceExec i s).memSize = s.memSize := rfl
@[simp] theorem traceExec_imem (i : Instr) (s : State) : (traceExec i s).imem = s.imem := rfl
@[simp] theorem traceExec_n (i : Instr) (s : State) : (traceExec i s).n = s.n := rfl
@[simp] theorem traceExec_stack (i : Instr) (s : State) : (traceExec i s).stack = s.stack := rfl
@[simp] theorem traceExec_status (i : Instr) (s : State) : (traceExec i s).status = s.status := rfl
@[simp] theorem traceExec_log (i : Instr) (s : State) : (traceExec i s).log = s.log ++ [.exec s.pc i.mnemonic i.operand s.acc] := rfl

/-- The increment happens exactly while the run goes on. -/
theorem advance_eq (s : State) : advance s = if s.status.state = .running then s.setPc (s.pc + 1) else s := by
  simp [advance, State.isRunning]

@[simp] theorem advance_pc (s : State) :
    (advance s).pc = if s.status.state = .running then s.pc + 1 else s.pc := by
  simp only [advance_eq]; split <;> rfl

@[simp] theorem advance_acc (s : State) : (advance s).acc = s.acc := by
  simp only [advance_eq]; split <;> rfl
@[simp] theorem advance_dmem (s : State) : (advance s).dmem = s.dmem := by
  simp only [advance_eq]; split <;> rfl
@[simp] theorem advance_memSize (s : State) : (advance s).memSize = s.memSize := by
  simp only [advance_eq]; split <;> rfl
@[simp] theorem advance_imem (s : State) : (advance s).imem = s.imem := by
  simp only [advance_eq]; split <;> rfl
@[simp] theorem advance_n (s : State) : (advance s).n = s.n := by
  simp only [advance_eq]; split <;> rfl
@[simp] theorem advance_stack (s : State) : (advance s).stack = s.stack := by
  simp only [advance_eq]; split <;> rfl
@[simp] theorem advance_status (s : State) : (advance s).status = s.status := by
  simp only [advance_eq]; split <;> rfl
@[simp] theorem advance_log (s : State) : (advance s).log = s.log := by
  simp only [advance_eq]; split <;> rfl

/-- The summary entry depends on `PC`, `ACC`, `DMEM` and `MEM_SIZE` alone. -/
theorem State.summary_congr {s t : State} (hpc : t.pc = s.pc) (hacc : t.acc = s.acc) (hm : t.dmem = s.dmem)
    (hz : t.memSize = s.memSize) : t.summary = s.summary := by
  simp [State.summary, State.snapshot, hpc, hacc, hm, hz]

end Sys2Proof.Machine
end

