-- ==== Sys2Proof/Laws/Step.lean ====
section
/-! SUPPORT. What each shared operation can do, said once: the access primitives, and one inversion lemma for `step`. -/

namespace Sys2Proof.Machine

/-! ### The access primitives -/

theorem memRead_of_valid {b : Operand} {s : State} (h : s.ValidAddress b) :
    memRead b s = .ok (s.dmem.read (cellAddress b)) := by simp [memRead, h]

theorem memRead_of_invalid {b : Operand} {s : State} (h : ¬ s.ValidAddress b) : memRead b s = .error ⟨b⟩ := by
  simp [memRead, h]

theorem memWrite_of_valid {b : Operand} {v : Cell} {s : State} (h : s.ValidAddress b) :
    memWrite b v s = .ok (s.setDmem (s.dmem.write (cellAddress b) v)) := by simp [memWrite, h]

theorem memWrite_of_invalid {b : Operand} {v : Cell} {s : State} (h : ¬ s.ValidAddress b) :
    memWrite b v s = .error ⟨b⟩ := by simp [memWrite, h]

/-! ### What `exec` can do -/

/-- Every next state of `exec`: the accumulator replaced, one valid cell replaced, or the memory halt. -/
theorem exec_cases (i : Instr) (s : State) :
    (∃ v, exec i s = .next (s.setAcc v)) ∨
    (∃ v, s.ValidAddress i.operand ∧ exec i s = .next (s.setDmem (s.dmem.write (cellAddress i.operand) v))) ∨
    (¬ s.ValidAddress i.operand ∧ exec i s = .next (haltMemory ⟨i.operand⟩ s)) := by
  cases i with
  | loadConst b => exact .inl ⟨_, rfl⟩
  | readValue b =>
    by_cases h : s.ValidAddress b
    · exact .inl ⟨s.dmem.read (cellAddress b), by simp [exec, execReadValue, memRead_of_valid h]⟩
    · exact .inr (.inr ⟨h, by simp [exec, execReadValue, memRead_of_invalid h, Instr.operand]⟩)
  | writeValue b =>
    by_cases h : s.ValidAddress b
    · exact .inr (.inl ⟨s.acc, h, by simp [exec, execWriteValue, memWrite_of_valid h, Instr.operand]⟩)
    · exact .inr (.inr ⟨h, by simp [exec, execWriteValue, memWrite_of_invalid h, Instr.operand]⟩)
  | less b =>
    by_cases h : s.ValidAddress b
    · exact .inr (.inl ⟨lessThan (s.dmem.read (cellAddress b)) s.acc, h,
        by simp [exec, execLess, memRead_of_valid h, memWrite_of_valid h, Instr.operand]⟩)
    · exact .inr (.inr ⟨h, by simp [exec, execLess, memRead_of_invalid h, Instr.operand]⟩)

/-! ### What `step` can do -/

/-- Every way `step` answers a next state: the normal end, the decoding halt, or the decoded instruction with its trace
entry before and the increment after. -/
theorem step_cases {s t : State} (h : step s = .next t) :
    s.status.state = .running ∧
    ((s.n ≤ s.pc ∧ t = haltNormal s) ∨
     (s.pc < s.n ∧ ∃ w, ifetch s.imem s.pc = some w ∧
       ((∃ a, decodeWord w = .error a ∧ t = haltDecoding a s) ∨
        (∃ i u, decodeWord w = .ok i ∧ exec i (traceExec i s) = .next u ∧ t = advance u)))) := by
  unfold step at h
  split at h
  · rename_i hr
    refine ⟨by simpa [State.isRunning] using hr, ?_⟩
    split at h
    · exact .inl ⟨‹_›, by simpa using h.symm⟩
    · refine .inr ⟨by omega, ?_⟩
      split at h
      · cases h
      · rename_i w hw
        refine ⟨w, hw, ?_⟩
        split at h
        · exact .inl ⟨_, ‹_›, by simpa using h.symm⟩
        · rename_i i hi
          split at h
          · exact .inr ⟨i, _, hi, ‹_›, by simpa using h.symm⟩
          · cases h
          · cases h
  · cases h

/-- No handler runs after an error: once the halt is taken, no step is enabled (60_exceptions.md R165, R175). -/
@[simp] theorem step_haltError (cause : Cause) (info : BitVec 33) (s : State) :
    step (haltError cause info s) = .fault .runEnded := rfl

/-! ### Runs -/

/-- What every step keeps, a run keeps: the induction over a run, packaged once. -/
theorem runFrom_keeps {P : State → Prop} (hstep : ∀ s t, P s → step s = .next t → P t) :
    ∀ (fuel : Nat) (s t : State), P s → runFrom fuel s = .next t → P t
  | 0, _, _, hs, h => by cases h; exact hs
  | k + 1, s, t, hs, h => by
    simp only [runFrom] at h
    split at h
    · split at h
      · exact runFrom_keeps hstep k _ t (hstep s _ hs ‹_›) h
      · cases h
      · cases h
    · cases h
      exact hs

/-- A run that has ended stays as it is. -/
theorem runFrom_of_ended {s : State} (h : s.status.state ≠ .running) (fuel : Nat) : runFrom fuel s = .next s := by
  cases fuel <;> simp [runFrom, State.isRunning, h]

end Sys2Proof.Machine
end

