-- ==== Sys2Proof/Laws/Text.lean ====
section
/-! SUPPORT. Stripping white space and comments: what a strip leaves, and that white space at either end of a line does not
change what the line says. -/

namespace Sys2Proof.Machine

/-- Every character is white space. -/
def AllSpace (t : Text) : Prop := ∀ c ∈ t, isSpace c = true

theorem AllSpace.reverse {t : Text} (h : AllSpace t) : AllSpace t.reverse := fun c hc => h c (by simpa using hc)

theorem AllSpace.no_hash {t : Text} (h : AllSpace t) : ∀ c ∈ t, c ≠ '#' := by
  rintro c hc rfl
  exact absurd (h _ hc) (by decide)

/-! ### strip -/

theorem stripLeft_append_space (w t : Text) (h : AllSpace w) : stripLeft (w ++ t) = stripLeft t := by
  induction w with
  | nil => rfl
  | cons c w ih => simpa [stripLeft, h c (by simp)] using ih (fun d hd => h d (by simp [hd]))

theorem stripLeft_append (w t : Text) (h : ¬ AllSpace w) : stripLeft (w ++ t) = stripLeft w ++ t := by
  induction w with
  | nil => exact absurd (fun c hc => by simp at hc) h
  | cons c w ih =>
    by_cases hc : isSpace c = true
    · have hw : ¬ AllSpace w := fun hs => h (by
        intro d hd
        rcases List.mem_cons.1 hd with rfl | hd
        exacts [hc, hs d hd])
      simpa [stripLeft, hc] using ih hw
    · simp [stripLeft, hc]

theorem stripLeft_of_allSpace {t : Text} (h : AllSpace t) : stripLeft t = [] := by
  simpa [stripLeft] using stripLeft_append_space t [] h

theorem strip_space_append (w t : Text) (h : AllSpace w) : strip (w ++ t) = strip t := by
  simp [strip, stripLeft_append_space w t h]

theorem strip_append_space (t w : Text) (h : AllSpace w) : strip (t ++ w) = strip t := by
  unfold strip
  by_cases ht : AllSpace t
  · rw [stripLeft_append_space t w ht, stripLeft_of_allSpace h, stripLeft_of_allSpace ht]
  · rw [stripLeft_append t w ht, List.reverse_append, stripLeft_append_space _ _ h.reverse]

/-- A text is white space, its stripped core, white space. -/
theorem strip_decompose (t : Text) : ∃ w₁ w₂, AllSpace w₁ ∧ AllSpace w₂ ∧ t = w₁ ++ strip t ++ w₂ := by
  have split : ∀ t : Text, ∃ w, AllSpace w ∧ t = w ++ stripLeft t := fun t =>
    ⟨t.takeWhile isSpace, fun c hc => List.mem_takeWhile_imp hc, List.takeWhile_append_dropWhile.symm⟩
  obtain ⟨w₁, h₁, e₁⟩ := split t
  obtain ⟨w₂, h₂, e₂⟩ := split (stripLeft t).reverse
  refine ⟨w₁, w₂.reverse, h₁, h₂.reverse, ?_⟩
  have : stripLeft t = strip t ++ w₂.reverse := by
    unfold strip
    rw [← List.reverse_append, ← e₂, List.reverse_reverse]
  rw [List.append_assoc, ← this]
  exact e₁

theorem strip_eq_nil_iff (t : Text) : strip t = [] ↔ AllSpace t := by
  constructor
  · intro h
    obtain ⟨w₁, w₂, h₁, h₂, e⟩ := strip_decompose t
    rw [h, List.append_nil] at e
    rw [e]
    intro c hc
    rcases List.mem_append.1 hc with hc | hc
    exacts [h₁ c hc, h₂ c hc]
  · intro h
    rw [strip, stripLeft_of_allSpace h]
    rfl

/-! ### Comments -/

theorem dropComment_append (w t : Text) (h : ∀ c ∈ w, c ≠ '#') : dropComment (w ++ t) = w ++ dropComment t := by
  unfold dropComment
  rw [List.takeWhile_append_of_pos]
  intro c hc
  simpa using h c hc

theorem dropComment_append_of_hash (t w : Text) (h : ¬ ∀ c ∈ t, c ≠ '#') : dropComment (t ++ w) = dropComment t := by
  induction t with
  | nil => simp at h
  | cons c t ih =>
    by_cases hc : c = '#'
    · simp [dropComment, hc]
    · simp only [dropComment, List.cons_append, List.takeWhile_cons] at ih ⊢
      rw [ih (fun h' => h fun d hd => (List.mem_cons.1 hd).elim (fun e => e ▸ hc) (h' d))]

/-- White space at the end of a line does not change its stripped content. -/
theorem strip_dropComment_append_space (t w : Text) (h : AllSpace w) :
    strip (dropComment (t ++ w)) = strip (dropComment t) := by
  by_cases ht : ∀ c ∈ t, c ≠ '#'
  · have e₁ : dropComment w = w := by simpa [dropComment] using dropComment_append w [] h.no_hash
    have e₂ : dropComment t = t := by simpa [dropComment] using dropComment_append t [] ht
    rw [dropComment_append _ _ ht, e₁, e₂, strip_append_space _ _ h]
  · rw [dropComment_append_of_hash _ _ ht]

/-- White space at the start of a line does not change its stripped content. -/
theorem strip_dropComment_space_append (w t : Text) (h : AllSpace w) :
    strip (dropComment (w ++ t)) = strip (dropComment t) := by
  rw [dropComment_append _ _ h.no_hash, strip_space_append _ _ h]

/-- A line is read through its stripped content alone. -/
theorem parseLine_congr {a b : Text} (h : strip (dropComment a) = strip (dropComment b)) : parseLine a = parseLine b := by
  unfold parseLine
  rw [h]

end Sys2Proof.Machine
end

