-- ==== Sys2Proof/Tests/Slice0.lean ====
section
/-! SUPPORT. Tests whose expected results are the worked examples and vectors of 95_test_vectors.md (named by their ids
there), the smoke tests of every well-formedness check, and for every obligation with hypotheses a witness that meets
them. -/

namespace Sys2Proof.Tests

open Sys2Proof.Machine

/-- A running state with the given accumulator, memory and bytecode, at instruction 0 of a 2048-cell machine. -/
def start (acc : Cell) (mem : Memory) (code : List Byte) : State :=
  { State.reset with acc := acc, dmem := mem, imem := code, n := instrCount code }

/-- The next state of an outcome, if it has one. -/
def nextOf (o : Host.Outcome State Fault Refusal) : Option State :=
  match o with
  | .next s => some s
  | .fault _ => none
  | .refused _ => none

/-- The state after one step. -/
def after (s : State) : Option State := nextOf (step s)

/-! ### Encoder and decoder: every constructor's word, written out from the format -/

/-- E1, E2, E3, E4 in both directions. -/
theorem test_fixture_words :
    encodePort 14 381 = .ok [0x8E, 0xBE, 0x00, 0x00, 0x00] ∧ decode [0x8E, 0xBE, 0x00, 0x00, 0x00] = .ok (.loadConst 381) ∧
    encodePort 11 435 = .ok [0x8B, 0xD9, 0x00, 0x00, 0x00] ∧ decode [0x8B, 0xD9, 0x00, 0x00, 0x00] = .ok (.readValue 435) ∧
    encodePort 94 308 = .ok [0x5E, 0x9A, 0x00, 0x00, 0x00] ∧ decode [0x5E, 0x9A, 0x00, 0x00, 0x00] = .ok (.writeValue 308) ∧
    encodePort 69 989 = .ok [0xC5, 0xEE, 0x01, 0x00, 0x00] ∧ decode [0xC5, 0xEE, 0x01, 0x00, 0x00] = .ok (.less 989) := by
  decide

/-- EN5, EN7, EN9, EN10, EN11, EN12. -/
theorem test_encoder_limits :
    encodePort 14 67108863 = .ok [0x8E, 0xFF, 0xFF, 0xFF, 0x01] ∧
    encodePort 94 33554432 = .ok [0x5E, 0x00, 0x00, 0x00, 0x01] ∧
    encodePort 1 5 = .ok [0x81, 0x02, 0x00, 0x00, 0x00] ∧
    encodePort 14 67108864 = .error ⟨14, 67108864⟩ ∧ encodePort 14 (-1) = .error ⟨14, -1⟩ ∧
    encodePort 128 0 = .error ⟨128, 0⟩ := by
  decide

/-- DE3, DE4, DE6, DE7, DE10, DE13, DE15. -/
theorem test_decoder_limits :
    decode [0x0E, 0x00, 0x00, 0x00, 0x02] = .ok (.loadConst 67108864) ∧
    decode [0x8E, 0xFF, 0xFF, 0xFF, 0xFF] = .ok (.loadConst 8589934591) ∧
    decode [0xDE, 0xFF, 0x03, 0x00, 0x00] = .ok (.writeValue 2047) ∧
    decode [0x45, 0x00, 0x00, 0x00, 0x80] = .ok (.less 4294967296) ∧
    decode [0x80, 0x00, 0x00, 0x00, 0x00] = .error (.unknownOpcode 0) ∧
    decode [0xFF, 0xFF, 0xFF, 0xFF, 0xFF] = .error (.unknownOpcode 127) ∧
    decode [0x0E, 0x00, 0x00, 0x00, 0x00, 0x00] = .error (.badLength 6) := by
  decide

/-- The match values of opcode_table.json, operand 0. -/
theorem test_table_words :
    decodeTableWord 40 0x0E = some (.loadConst 0) ∧ decodeTableWord 40 0x0B = some (.readValue 0) ∧
    decodeTableWord 40 0x5E = some (.writeValue 0) ∧ decodeTableWord 8 0x45 = some (.less 0) := by
  decide

/-- A table word placed in the reset machine is what the next step runs: the trace entry names it. -/
theorem test_withFetchWord_runs :
    (after (State.reset.withFetchWord 40 0xBE8E)).map (fun s => (s.acc, s.pc, s.log))
      = some (381, 1, [.exec 0 .loadConst 381 0]) := by
  decide

/-! ### The instructions -/

/-- V-LC1. -/
theorem test_load_const :
    (after (start (-1) [] [0x8E, 0x03, 0x00, 0x00, 0x00])).map (fun s => (s.acc, s.dmem, s.pc)) = some (7, [], 1) := by
  decide

/-- V-LC4: all 33 operand bits, exact. -/
theorem test_load_const_33_bits :
    (after (start 0 [] [0x8E, 0xFF, 0xFF, 0xFF, 0xFF])).map (·.acc) = some 8589934591 := by
  decide

/-- V-RV1: a negative cell is copied unchanged. -/
theorem test_read_value :
    (after (start 99 [(7, -42)] [0x8B, 0x03, 0x00, 0x00, 0x00])).map (fun s => (s.acc, s.dmem, s.pc))
      = some (-42, [(7, -42)], 1) := by
  decide

/-- V-RV3 at `k = 0`, with the entries of 40_execution_loop.md R121. -/
theorem test_read_value_outside :
    (after (start 1 [] [0x0B, 0x00, 0x04, 0x00, 0x00])).map (fun s => (s.acc, s.pc, s.status, s.log))
      = some (1, 0, ⟨.haltedError, .memoryAccessError, 0, 2048⟩,
          [.exec 0 .readValue 2048 1, .error 0 .memoryAccessError 2048, .summary 0 1 (List.replicate 16 0)]) := by
  decide

/-- V-WV1. -/
theorem test_write_value :
    (after (start (-42) [(7, 99)] [0xDE, 0x03, 0x00, 0x00, 0x00])).map (fun s => (s.acc, s.dmem, s.pc))
      = some (-42, [(7, -42)], 1) := by
  decide

/-- V-WV3 at `k = 0`. -/
theorem test_write_value_outside :
    (after (start 1 [] [0x5E, 0x00, 0x04, 0x00, 0x00])).map (fun s => (s.dmem, s.pc, s.status))
      = some ([], 0, ⟨.haltedError, .memoryAccessError, 0, 2048⟩) := by
  decide

/-- V-LS4: signed, stored cell on the left. -/
theorem test_less_signed :
    (after (start 3 [(7, -5)] [0xC5, 0x03, 0x00, 0x00, 0x00])).map (fun s => (s.acc, s.dmem)) = some (3, [(7, 1)]) := by
  decide

/-- V-LS2: strict, and a result of 0 is no listed cell. -/
theorem test_less_strict :
    (after (start 5 [(7, 5)] [0xC5, 0x03, 0x00, 0x00, 0x00])).map (fun s => (s.acc, s.dmem)) = some (5, []) := by
  decide

/-! ### The sequencer, one step each -/

/-- X1 and X2: no whole word, so the first step ends the run; the second vector's fragment is ignored. -/
theorem test_empty_programs :
    ∀ code ∈ [[], [0x0B, 0x01]], (after (start 0 [] code)).map (fun s => (s.pc, s.status.state, s.log))
      = some (0, .haltedNormal, [.summary 0 0 (List.replicate 16 0)]) := by
  decide

/-- P4's illegal word, alone: no `Exec` entry, the opcode field recorded. -/
theorem test_illegal_word :
    (after (start 42 [(3, 42)] [0x01, 0x00, 0x00, 0x00, 0x00])).map (fun s => (s.acc, s.pc, s.dmem, s.status))
      = some (42, 0, [(3, 42)], ⟨.haltedError, .decodingError, 0, 1⟩) := by
  decide

/-- An ended run takes no step. -/
theorem test_ended_run_stops : nextOf (step { State.reset with status := ⟨.haltedNormal, .none, 0, 0⟩ }) = none := by
  decide

/-- X4's last instruction: the snapshot of a 4-cell memory has 4 cells. -/
theorem test_small_memory_summary :
    (after { start 9 [(0, 1), (1, 2), (2, 3)] [0x0B, 0x02, 0x00, 0x00, 0x00] with memSize := 4 }).map (·.log)
      = some [.exec 0 .readValue 4 9, .error 0 .memoryAccessError 4, .summary 0 9 [1, 2, 3, 0]] := by
  decide

/-- The codes of 10_state.md R29. -/
theorem test_status_codes :
    [RunState.running, .haltedNormal, .haltedError].map stateCode = [0, 1, 2] ∧
    [Cause.none, .decodingError, .memoryAccessError, .dispatchError].map causeCode = [0, 1, 2, 3] := by
  decide

/-! ### The assembler -/

/-- E5. -/
theorem test_assemble_fixture :
    (match assemble "load_const; 381\nread_value; 435\nwrite_value; 308\nless; 989\n".toList with
      | .ok r => some (r.bytecode, r.ir.map (·.argument), r.nothingToAssemble)
      | .error _ => none)
      = some ([0x8E, 0xBE, 0x00, 0x00, 0x00, 0x8B, 0xD9, 0x00, 0x00, 0x00, 0x5E, 0x9A, 0x00, 0x00, 0x00, 0xC5, 0xEE,
          0x01, 0x00, 0x00], [381, 435, 308, 989], false) := by
  decide

/-- E6 and A3. -/
theorem test_assemble_spacing :
    assemble "  load_const; 381  # comment".toList = assemble "load_const;381".toList ∧
    assemble "load_const; +5".toList = assemble "load_const;5".toList := by
  decide

/-- A1 and A2: the warning, and no warning. -/
theorem test_assemble_nothing :
    assemble "  \n\t\n".toList = .ok ⟨[], [], true⟩ ∧ assemble "# only a comment\n\n".toList = .ok ⟨[], [], false⟩ := by
  decide

/-- A7, A8, A9, A15: syntax errors come first. -/
theorem test_assemble_syntax_errors :
    assemble "load_const # ; 5".toList = .error (.syntaxError "load_const".toList) ∧
    assemble "load_const; 0x10".toList = .error (.syntaxError "load_const".toList) ∧
    assemble "load_const; 5; 6".toList = .error (.syntaxError "load_const".toList) ∧
    assemble "jump; 1\nload_const;".toList = .error (.syntaxError "load_const".toList) := by
  decide

/-- A10, A11, A12, A16: lookup precedes encoding. -/
theorem test_assemble_lowering_errors :
    assemble "LOAD_CONST; 5".toList = .error (.unknownMnemonic "LOAD_CONST".toList) ∧
    assemble "; 5".toList = .error (.unknownMnemonic []) ∧
    assemble "load_const; -1".toList = .error (.encoding ⟨14, -1⟩) ∧
    assemble "jump; -1".toList = .error (.unknownMnemonic "jump".toList) := by
  decide

/-! ### Smoke tests: each check refuses an ill-formed term -/

theorem test_wellFormed_refuses :
    ¬ Instr.WellFormed (.loadConst 67108864) ∧ Instr.WellFormed (.loadConst 67108863) ∧
    ¬ ProgramWellFormed [.less 0, .readValue 67108864] := by
  decide

theorem test_memory_wf_refuses :
    ¬ Memory.wf [(3, 1), (2, 1)] ∧ ¬ Memory.wf [(3, 1), (3, 2)] ∧ ¬ Memory.wf [(3, 0)] ∧ Memory.wf [(2, 1), (3, 2)] ∧
    ¬ Memory.Bounded [(4, 1)] 4 ∧ Memory.Bounded [(3, 1)] 4 := by
  decide

/-- The reset state with other values in fields that no operation writes. -/
def resetWith (memSize n : Nat) (stack : List Cell) (status : Status) (log : List TraceEntry) : State :=
  { State.reset with memSize := memSize, n := n, stack := stack, status := status, log := log }

theorem test_fresh_refuses_registers :
    State.Fresh State.reset ∧ ¬ State.Fresh (State.reset.setPc 1) ∧ ¬ State.Fresh (State.reset.setAcc 1) ∧
    ¬ State.Fresh (State.reset.setDmem [(2048, 1)]) ∧ ¬ State.Fresh (State.reset.setDmem [(3, 0)]) := by
  decide

theorem test_fresh_refuses_launch_fields :
    ¬ State.Fresh (resetWith 0 0 [] Status.reset []) ∧ ¬ State.Fresh (resetWith 1 0 [0] Status.reset []) ∧
    ¬ State.Fresh (resetWith 1 0 [] ⟨.haltedNormal, .none, 0, 0⟩ []) ∧
    ¬ State.Fresh (resetWith 1 0 [] Status.reset [.summary 0 0 []]) := by
  decide

theorem test_inv_refuses_counts :
    ¬ State.Inv (State.reset.setPc 1) ∧ ¬ State.Inv (resetWith 1 1 [] Status.reset []) := by
  decide

theorem test_inv_refuses_launch_fields :
    ¬ State.Inv (resetWith 1 0 [0] Status.reset []) ∧ ¬ State.Inv (resetWith 0 0 [] Status.reset []) := by
  decide

theorem test_status_legal_refuses :
    ¬ Status.Legal ⟨.running, .decodingError, 0, 0⟩ 0 1 ∧ ¬ Status.Legal ⟨.haltedError, .dispatchError, 0, 0⟩ 0 1 ∧
    ¬ Status.Legal ⟨.haltedError, .decodingError, 0, 14⟩ 0 1 ∧ ¬ Status.Legal ⟨.haltedError, .memoryAccessError, 0, 0⟩ 0 1 ∧
    Status.Legal ⟨.haltedError, .decodingError, 3, 127⟩ 3 1 := by
  decide

theorem test_sourceLine_good_refuses :
    ¬ SourceLine.Good (.instr ⟨[], .less, [], [], false, [], [], []⟩) ∧
    ¬ SourceLine.Good (.instr ⟨['x'], .less, [], [], false, ['1'], [], []⟩) ∧
    ¬ SourceLine.Good (.blank [] ['x']) ∧ SourceLine.Good (.blank [' '] ['#', 'x']) := by
  decide

/-! ### Witnesses: every obligation's hypotheses can be met, clause by clause at the boundaries -/

/-- A state about to run `load_const 381`, one about to run `read_value 2048`, and one about to meet an illegal word. -/
def atLoad : State := start 0 [] [0x8E, 0xBE, 0x00, 0x00, 0x00]
def atOutside : State := start 1 [] [0x0B, 0x00, 0x04, 0x00, 0x00]
def atIllegal : State := start 0 [] [0x01, 0x00, 0x00, 0x00, 0x00]
/-- A state whose run has ended. -/
def ended : State := { State.reset with status := ⟨.haltedNormal, .none, 0, 0⟩ }

theorem witness_LittleEndianWordValue :
    [0x8E, 0xBE, 0x00, 0x00, 0x00].drop (5 * 0)
      = (0x8E : Byte) :: 0xBE :: 0x00 :: 0x00 :: 0x00 :: [0x8E, 0xBE, 0x00, 0x00, 0x00].drop (5 * 0 + 5) := by decide
theorem witness_FieldSplitIsBijection : (0x20000000E : Word).extractLsb' 33 7 ≠ 0 := by decide
theorem witness_EncoderPortOnAllIntegers :
    (((0 : Int) ≤ 127 ∧ (127 : Int) < 128) ∧ ((0 : Int) ≤ 67108863 ∧ (67108863 : Int) < 2 ^ 26)) ∧
    ¬ (((0 : Int) ≤ 127 ∧ (127 : Int) < 128) ∧ ((0 : Int) ≤ 67108864 ∧ (67108864 : Int) < 2 ^ 26)) ∧
    ¬ (((0 : Int) ≤ -1 ∧ (-1 : Int) < 128) ∧ ((0 : Int) ≤ 0 ∧ (0 : Int) < 2 ^ 26)) := by decide
theorem witness_EncodedWordsHaveZeroHighBits : encodePort 127 67108863 = .ok [0xFF, 0xFF, 0xFF, 0xFF, 0x01] := by decide
theorem witness_DecoderPortOnAllBytes : ([0x0E, 0x00, 0x00, 0x00] : List Byte).length ≠ 5 := by decide
theorem witness_OtherOpcodesAreIllegal :
    (1 : Word).toNat % 128 ≠ 11 ∧ (1 : Word).toNat % 128 ≠ 14 ∧ (1 : Word).toNat % 128 ≠ 69 ∧
      (1 : Word).toNat % 128 ≠ 94 ∧ atIllegal.Fetches 1 := by decide
theorem witness_EncoderDecoderRoundTrip :
    127 < 128 ∧ 67108863 < 2 ^ 26 ∧ Mnemonic.loadConst.opcode = BitVec.ofNat 7 14 ∧
      (127 ≠ 14 ∧ 127 ≠ 11 ∧ 127 ≠ 94 ∧ 127 ≠ 69) ∧ (leWord 0xFF 0xFF 0xFF 0xFF 0x01).extractLsb' 33 7 = 0 := by decide
theorem witness_EveryInstructionDecodesBack :
    decode [0x8E, 0xFF, 0xFF, 0xFF, 0xFF] = .ok (.loadConst 8589934591) ∧ Instr.WellFormed (.less 67108863) := by decide
theorem witness_ProgramWordsAreFetchedInOrder : 1 < [Instr.loadConst 5, .writeValue 0].length := by decide

theorem witness_LoadConstLoadsOperand : (splitWord 0xBE8E).1 = 14 := by decide
theorem witness_ReadValueLoadsCell :
    (splitWord 0x50B).1 = 11 ∧ (2047 : Operand).toNat < State.reset.memSize ∧ State.reset.memSize ≤ (2048 : Operand).toNat ∧
      10 < (start 0 [(10, 1)] []).memSize ∧ (start 0 [(10, 1)] []).dmem.read 10 = 1 := by decide
theorem witness_ReadValueLoadsCell_launch :
    launchState 1 (fun _ => -5) = .next { State.reset with memSize := 1, dmem := [(0, -5)] } ∧ (0 : Operand).toNat < 1 :=
  ⟨rfl, by decide⟩
theorem witness_WriteValueStoresAccumulator :
    (splitWord 0x5E).1 = 94 ∧ (2047 : Operand).toNat < (start 5 [] []).memSize ∧
      (start 5 [] []).memSize ≤ (2048 : Operand).toNat ∧ (start 5 [(3, 5)] []).dmem.wf ∧
      (start 5 [(3, 5)] []).dmem.read (3 : Operand).toNat = (start 5 [(3, 5)] []).acc ∧
      0 < (start 5 [] []).memSize ∧ (start 5 [] []).acc = 5 ∧ 1 ≠ (0 : Operand).toNat := by decide
theorem witness_WriteValueStoresAccumulator_next :
    exec (.writeValue 2047) (start 5 [] []) = .next (start 5 [(2047, 5)] []) := rfl
theorem witness_LessComparesCellWithAccumulator :
    (splitWord 0x45).1 = 69 ∧ (2047 : Operand).toNat < (start 3 [] []).memSize ∧
      (start 3 [] []).memSize ≤ (2048 : Operand).toNat ∧ 1 < (start 3 [] []).acc.toInt ∧ (start 0 [] []).acc.toInt ≤ 0 ∧
      0 < (start 3 [(0, 5)] []).memSize ∧ (start 3 [(0, 5)] []).dmem.read 0 = 5 ∧ (start 3 [(0, 5)] []).acc = 3 := by
  decide
theorem witness_LessComparesCellWithAccumulator_next :
    exec (.less 0) (start 3 [] []) = .next (start 3 [(0, 1)] []) ∧
      exec (.less 0) (start 3 [(0, 1)] []) = .next (start 3 [(0, 1)] []) ∧
      exec (.less 0) (start 0 [(0, 1)] []) = .next (start 0 [] []) ∧
      exec (.less 0) (start 0 [] []) = .next (start 0 [] []) := ⟨rfl, rfl, rfl, rfl⟩
theorem witness_RegisterFormsFrame :
    exec (.readValue 7) (start 0 [(7, 1)] []) = .next (start 1 [(7, 1)] []) ∧
      outsideMemory (start 0 [(7, 1)] []).memSize (.readValue 7) = false ∧
      outsideMemory State.reset.memSize (.readValue 2048) = true := ⟨rfl, by decide⟩
theorem witness_RegisterFormsFrame_outside :
    exec (.readValue 2048) State.reset = .next (haltMemory ⟨2048⟩ State.reset) := rfl
theorem witness_StoringFormsFrame :
    exec (.writeValue 2048) State.reset = .next (haltMemory ⟨2048⟩ State.reset) ∧
      exec (.less 2048) State.reset = .next (haltMemory ⟨2048⟩ State.reset) ∧
      outsideMemory State.reset.memSize (.less 2047) = false ∧ outsideMemory State.reset.memSize (.less 2048) = true ∧
      2046 ≠ cellAddress 2047 := ⟨rfl, rfl, by decide⟩
theorem witness_CellsAgreeWithUnboundedIntegers : outsideMemory State.reset.memSize (.less 2047) = false := by decide

theorem witness_MemoryAccessPrimitives :
    (2047 : Operand).toNat < State.reset.memSize ∧ State.reset.memSize ≤ (2048 : Operand).toNat ∧
      2046 ≠ (2047 : Operand).toNat := by decide
theorem witness_CanonicalMemoryIsItsCells : Memory.wf [(2, 1), (3, 2)] := by decide
theorem witness_FetchReadsFiveBytes : atLoad.Inv ∧ atLoad.pc < atLoad.n := by decide

theorem witness_StepRunsDecodedInstruction :
    atLoad.status.state = .running ∧ atLoad.pc < atLoad.n ∧
      decode ((atLoad.imem.drop (5 * atLoad.pc)).take 5) = .ok (.loadConst 381) := by decide
theorem witness_SequencerStep_end :
    State.reset.Inv ∧ State.reset.status.state = .running ∧ State.reset.n ≤ State.reset.pc := by decide
theorem witness_SequencerStep_inside :
    atLoad.Inv ∧ atLoad.status.state = .running ∧ atLoad.pc < atLoad.n ∧
      decodeWord 0xBE8E = .ok (.loadConst 381) ∧ outsideMemory atLoad.memSize (.loadConst 381) = false := by decide
theorem witness_SequencerStep_illegal :
    atIllegal.Inv ∧ atIllegal.status.state = .running ∧ atIllegal.pc < atIllegal.n ∧ decodeWord 1 = .error 1 := by decide
theorem witness_SequencerStep_outside :
    atOutside.Inv ∧ atOutside.status.state = .running ∧ atOutside.pc < atOutside.n ∧
      decodeWord 0x4000B = .ok (.readValue 2048) ∧ outsideMemory atOutside.memSize (.readValue 2048) = true := by decide
theorem witness_SequencerStep_words :
    ifetch atLoad.imem 0 = some 0xBE8E ∧ ifetch atIllegal.imem 0 = some 1 ∧ ifetch atOutside.imem 0 = some 0x4000B ∧
      step State.reset = .next (haltNormal State.reset) := ⟨by decide, by decide, by decide, rfl⟩
theorem witness_NormalTermination :
    (State.reset.Inv ∧ State.reset.status.state = .running ∧ State.reset.pc = State.reset.n) ∧
    (atLoad.Inv ∧ atLoad.status.state = .running ∧ atLoad.pc < atLoad.n) ∧ State.reset.Fresh := by decide
theorem witness_DecodeFailureHalts : atIllegal.Fetches 1 ∧ decodeWord 1 = .error 1 := by decide
theorem witness_TraceComesBeforeExecution :
    (atLoad.Fetches 0xBE8E ∧ decodeWord 0xBE8E = .ok (.loadConst 381) ∧
      outsideMemory atLoad.memSize (.loadConst 381) = false) ∧
    (atOutside.Fetches 0x4000B ∧ decodeWord 0x4000B = .ok (.readValue 2048) ∧
      outsideMemory atOutside.memSize (.readValue 2048) = true) := by decide
theorem witness_ProgramCounterMovesByOne : atLoad.Fetches 0xBE8E ∧ decodeWord 0xBE8E = .ok (.loadConst 381) := by decide
theorem witness_MemoryErrorHalts :
    atOutside.Fetches 0x4000B ∧ decodeWord 0x4000B = .ok (.readValue 2048) ∧
      outsideMemory atOutside.memSize (.readValue 2048) = true := by decide
theorem witness_HaltIsPrecise :
    step atIllegal = .next (haltDecoding 1 atIllegal) ∧ (haltDecoding 1 atIllegal).status.state = .haltedError :=
  ⟨rfl, rfl⟩
theorem witness_EndedRunIsFinal : ended.status.state ≠ .running := by decide
theorem witness_EveryErrorTakesTheOneHalt :
    (step atIllegal = .next (haltDecoding 1 atIllegal) ∧ (haltDecoding 1 atIllegal).status.state = .haltedError) ∧
    step atOutside = .next (haltMemory ⟨2048⟩ (traceExec (.readValue 2048) atOutside)) ∧
      (haltMemory ⟨2048⟩ (traceExec (.readValue 2048) atOutside)).status.state = .haltedError := ⟨⟨rfl, rfl⟩, rfl, rfl⟩
theorem witness_ErrorsDependOnWordAndMemorySize :
    (atOutside.Fetches 0x4000B ∧ (atOutside.setAcc 7).Fetches 0x4000B ∧
      atOutside.memSize = (atOutside.setAcc 7).memSize) ∧
    atIllegal.Fetches 1 ∧ (atIllegal.setAcc 7).Fetches 1 ∧ atIllegal.memSize = (atIllegal.setAcc 7).memSize := by decide
theorem witness_NothingElseWritesControlState : step State.reset = .next (haltNormal State.reset) := rfl
theorem witness_LogHasNoEffect :
    step State.reset = .next (haltNormal State.reset) ∧ step ended = .fault .runEnded ∧
      step { State.reset with n := 1 } = .refused .fetchOutsideImem := ⟨rfl, rfl, rfl⟩

theorem witness_LaunchMeetsInvariant : State.reset.Fresh := by decide
theorem witness_StepKeepsInvariant : State.reset.Inv ∧ step State.reset = .next (haltNormal State.reset) :=
  ⟨by decide, rfl⟩
theorem witness_StepKeepsLogShape : atLoad.Inv ∧ LogShape atLoad ∧ after atLoad ≠ none :=
  ⟨by decide, ⟨fun _ h => absurd h (Nat.not_lt_zero _), rfl⟩, by decide⟩
theorem witness_StepKeepsProgramMadeValues :
    State.reset.AllProgramMade ∧ step State.reset = .next (haltNormal State.reset) :=
  ⟨⟨by decide, fun _ => (by decide : ProgramMade 0)⟩, rfl⟩
theorem witness_ProgramCounterFitsAnyWidth :
    atLoad.Inv ∧ atLoad.n < 2 ^ 1 ∧ after atLoad ≠ none := by decide

theorem witness_LaunchStateValues :
    launchState 1 (fun _ => -5) = .next { State.reset with memSize := 1, dmem := [(0, -5)] } := rfl
theorem witness_LaunchContract :
    1 ≤ 1 ∧ ((-2 : Int) ^ 63 ≤ 2 ^ 63 - 1 ∧ (2 : Int) ^ 63 - 1 < 2 ^ 63) ∧ 0 < 1 ∧
      ¬ (-2 ^ 63 ≤ (2 : Int) ^ 63 ∧ (2 : Int) ^ 63 < 2 ^ 63) ∧ ¬ ended.Fresh := by decide
theorem witness_EmptyProgramEndsAtOnce : ([0x0B, 0x01, 0x00, 0x00] : List Byte).length < 5 ∧ State.reset.Fresh := by decide
theorem witness_TrailingFragmentIsIgnored :
    ([] : List Byte).length % 5 = 0 ∧ ([0x0B, 0x01, 0x00, 0x00] : List Byte).length < 5 := by decide
theorem witness_TrailingFragmentIsIgnored_run :
    execute [] State.reset = .next (haltNormal (State.reset.loadBytecode [])) := rfl
theorem witness_EveryRunEnds :
    State.reset.Inv ∧ State.reset.status.state = .running ∧ State.reset.pc = State.reset.n ∧ State.reset.Fresh := by decide
theorem witness_RunRefinesUnboundedInterpreter : State.reset.Fresh := by decide
theorem witness_ReadOutShowsState : 2047 + 1 ≤ State.reset.memSize ∧ 0 < 1 := by decide

theorem witness_IntegerArgumentGrammar :
    strip (dropComment "less; 0x1".toList) ≠ [] ∧
      (splitArgument (strip (dropComment "less; 0x1".toList))).2 = some "0x1".toList ∧
      parseInteger "0x1".toList = none ∧ parseInteger "-7".toList = some (-7) := by decide
theorem witness_MissingArgumentIsSyntaxError :
    (strip (dropComment "less".toList) ≠ [] ∧ (splitArgument (strip (dropComment "less".toList))).2 = none) ∧
    (strip (dropComment "less; ".toList) ≠ [] ∧ (splitArgument (strip (dropComment "less; ".toList))).2 = some []) := by
  decide
theorem witness_LoweringOneEntry :
    ((0 : Int) ≤ 67108863 ∧ (67108863 : Int) < 2 ^ 26) ∧ ((-1 : Int) < 0 ∨ (2 : Int) ^ 26 ≤ -1) ∧
      mnemonicText .loadConst ≠ "jump".toList ∧ mnemonicText .readValue ≠ "jump".toList ∧
      mnemonicText .writeValue ≠ "jump".toList ∧ mnemonicText .less ≠ "jump".toList := by decide
theorem witness_FirstErrorIsReported :
    (splitLines (strip "less; 1\nless".toList) = ["less; 1".toList] ++ "less".toList :: [] ∧
      parseLine "less; 1".toList = .ok (some ⟨"less".toList, 1⟩) ∧
      parseLine "less".toList = .error (.syntaxError "less".toList)) ∧
    (parseLines (splitLines (strip "less; -1".toList)) = .ok ([] ++ ⟨"less".toList, -1⟩ :: []) ∧
      lowerEntry ⟨"less".toList, -1⟩ = .error (.encoding ⟨69, -1⟩)) ∧
    lowerEntry ⟨"jump".toList, -1⟩ = .error (.unknownMnemonic "jump".toList) := by decide
theorem witness_EmptySourceIsAWarning :
    (" \n\t".toList).all isSpace = true ∧ ("# x".toList).all isSpace = false ∧
      splitLines "# x".toList = ["# x".toList] ∧ strip (dropComment "# x".toList) = [] := by decide
theorem witness_AssembledSourceIsItsProgram :
    SourceLine.Good (.instr ⟨[' '], .less, [], [' '], true, ['9', '8', '9'], [], ['#', 'x']⟩) ∧
      SourceLine.Good (.instr ⟨[], .loadConst, [], [], false, ['6', '7', '1', '0', '8', '8', '6', '3'], [], []⟩) ∧
      SourceLine.text (.instr ⟨[' '], .less, [], [' '], true, ['9', '8', '9'], [], ['#', 'x']⟩)
        = " less; +989#x".toList := by decide

end Sys2Proof.Tests
end

section
/-! PROOFS. Data memory access and instruction fetch (20_memory.md R52, R55): where the fetched bytes lie and which word
they make, and the two obligations of the family. -/

namespace Sys2Proof.Machine

/-! ### Instruction fetch -/

/-- The fetch depends on the five bytes from `5*pc` on alone. -/
theorem ifetch_of_drop {imem rest : List Byte} {pc : Nat} {b0 b1 b2 b3 b4 : Byte}
    (h : imem.drop (5 * pc) = b0 :: b1 :: b2 :: b3 :: b4 :: rest) :
    ifetch imem pc = some (leWord b0 b1 b2 b3 b4) := by
  simp [ifetch, Config.wordBytes, h]

/-- Where all five bytes lie inside `IMEM`, the fetch gives their word. -/
theorem ifetch_of_lt {imem : List Byte} {pc : Nat} (h : 5 * pc + 4 < imem.length) :
    ifetch imem pc =
      some (leWord imem[5 * pc] imem[5 * pc + 1] imem[5 * pc + 2] imem[5 * pc + 3] imem[5 * pc + 4]) := by
  apply ifetch_of_drop (rest := imem.drop (5 * pc + 4 + 1))
  rw [List.drop_eq_getElem_cons (by omega), List.drop_eq_getElem_cons (by omega), List.drop_eq_getElem_cons (by omega),
    List.drop_eq_getElem_cons (by omega), List.drop_eq_getElem_cons h]

/-- An instruction index below the count `L div 5` has all its five bytes inside the bytecode. -/
theorem lt_length_of_lt_instrCount {bytes : List Byte} {k : Nat} (h : k < instrCount bytes) :
    5 * k + 4 < bytes.length := by
  simp only [instrCount, Config.wordBytes] at h
  omega

/-- In a run the latched `N` is the count of `IMEM`, so the word at `PC < N` lies inside `IMEM`. -/
theorem State.Inv.fetch_inside {s : State} (h : s.Inv) (hpc : s.pc < s.n) : 5 * s.pc + 4 < s.imem.length := by
  obtain ⟨-, -, -, hn, -⟩ := h
  exact lt_length_of_lt_instrCount (hn ▸ hpc)

/-! ### The obligations -/

/-- Settles O18: a valid access is the cell itself, by `Memory.read_write`; an invalid one is the error alone. -/
theorem memoryAccessPrimitives : Obligations.MemoryAccessPrimitives := by
  intro b v s
  refine ⟨fun hlt => ?valid, fun hle => ?invalid⟩
  case valid =>
    have hv : s.ValidAddress b := hlt
    exact ⟨memRead_of_valid hv, s.dmem.write (cellAddress b) v, memWrite_of_valid hv,
      by simp [Memory.read_write, cellAddress], fun a ha => by simp [Memory.read_write, cellAddress, ha]⟩
  case invalid =>
    have hv : ¬ s.ValidAddress b := Nat.not_lt.2 hle
    exact ⟨memRead_of_invalid hv, memWrite_of_invalid hv⟩

/-- Settles O20: the invariant puts the five bytes inside `IMEM`, and there the fetch gives their word. -/
theorem fetchReadsFiveBytes : Obligations.FetchReadsFiveBytes := by
  intro s hinv hpc
  have hlen : 5 * s.pc + 4 < s.imem.length := hinv.fetch_inside hpc
  exact ⟨_, _, _, _, _, List.getElem?_eq_getElem _, List.getElem?_eq_getElem _, List.getElem?_eq_getElem _,
    List.getElem?_eq_getElem _, List.getElem?_eq_getElem hlen, ifetch_of_lt hlen⟩

end Sys2Proof.Machine
end

section
/-! PROOFS. The instruction word, the encoder port and the decoder port (30_encoding.md sections 1 to 5): words as numbers,
one equation per case of each port, and the obligations on them. -/

namespace Sys2Proof.Machine

open Sys2Proof.Laws

/-! ### Words, bytes and fields -/

/-- R71's sum: the little-endian value of five bytes. -/
theorem leWord_toNat (b0 b1 b2 b3 b4 : Byte) :
    (leWord b0 b1 b2 b3 b4).toNat
      = b0.toNat + b1.toNat * 2 ^ 8 + b2.toNat * 2 ^ 16 + b3.toNat * 2 ^ 24 + b4.toNat * 2 ^ 32 := by
  simp only [leWord, append_toNat]
  omega

/-- The five bytes of a word have that word as their value. -/
theorem leWord_wordByte (w : Word) :
    leWord (wordByte w 0) (wordByte w 1) (wordByte w 2) (wordByte w 3) (wordByte w 4) = w := by
  apply BitVec.eq_of_toNat_eq
  simp only [leWord_toNat, wordByte_toNat]
  omega

/-- Five bytes are the bytes of their value. -/
theorem wordBytes_leWord (b0 b1 b2 b3 b4 : Byte) : wordBytes (leWord b0 b1 b2 b3 b4) = [b0, b1, b2, b3, b4] := by
  simp only [wordBytes, List.cons.injEq, and_true]
  refine ⟨?_, ?_, ?_, ?_, ?_⟩ <;>
    · apply BitVec.eq_of_toNat_eq
      simp only [wordByte_toNat, leWord_toNat]
      omega

/-- The bytes of a word as numbers: the word's value shifted down, and cut to a byte. -/
theorem wordBytes_ofNat (n : Nat) (hn : n < 2 ^ 40) :
    wordBytes (BitVec.ofNat 40 n) = [BitVec.ofNat 8 n, BitVec.ofNat 8 (n / 2 ^ 8), BitVec.ofNat 8 (n / 2 ^ 16),
      BitVec.ofNat 8 (n / 2 ^ 24), BitVec.ofNat 8 (n / 2 ^ 32)] := by
  have byte (k : Nat) : wordByte (BitVec.ofNat 40 n) k = BitVec.ofNat 8 (n / 2 ^ (8 * k)) := by
    apply BitVec.eq_of_toNat_eq
    rw [wordByte_toNat, BitVec.toNat_ofNat, BitVec.toNat_ofNat, Nat.mod_eq_of_lt hn]
  simp [wordBytes, byte]

/-- Joining the fields of a word gives it back. -/
theorem joinWord_splitWord (w : Word) : joinWord (splitWord w).1 (splitWord w).2 = w :=
  splitWord_injective (splitWord_joinWord _ _)

/-- The word with the fields `a` and `b`, as a number of 40 bits. -/
theorem joinWord_ofNat {a b : Nat} (ha : a < 2 ^ 7) :
    joinWord (BitVec.ofNat 7 a) (BitVec.ofNat 33 b) = BitVec.ofNat 40 (a + b * 2 ^ 7) := by
  apply BitVec.eq_of_toNat_eq
  simp only [joinWord_toNat, BitVec.toNat_ofNat]
  omega

/-- `value[39:33] = 0` says that the operand is in the encoder's budget. -/
theorem highBits_eq_zero_iff (w : Word) : w.extractLsb' 33 7 = 0 ↔ (splitWord w).2.toNat < 2 ^ 26 := by
  have hw := w.isLt
  simp only [BitVec.toNat_eq, BitVec.extractLsb'_toNat, splitWord_snd_toNat, Nat.shiftRight_eq_div_pow,
    BitVec.ofNat_eq_ofNat, BitVec.toNat_zero]
  omega

/-- `value[39:33]` and `w4[7:1]` are the same seven bits. -/
theorem wordByte_four_highBits (w : Word) : (wordByte w 4).extractLsb' 1 7 = w.extractLsb' 33 7 := by
  apply BitVec.eq_of_toNat_eq
  simp only [BitVec.extractLsb'_toNat, wordByte_toNat, Nat.shiftRight_eq_div_pow]
  omega

/-! ### The encoder port -/

/-- Inside its ranges the encoder port answers the bytes of the word with the two fields. -/
theorem encodePort_of_lt {a b : Nat} (ha : a < 128) (hb : b < 2 ^ 26) :
    encodePort (a : Int) (b : Int) = .ok (wordBytes (joinWord (BitVec.ofNat 7 a) (BitVec.ofNat 33 b))) := by
  have hor : a ||| b <<< 7 = a + b * 2 ^ 7 := by
    rw [Nat.or_comm, ← Nat.shiftLeft_add_eq_or_of_lt (by omega : a < 2 ^ 7), Nat.shiftLeft_eq, Nat.add_comm]
  rw [joinWord_ofNat ha, encodePort, if_neg (by simp [Config.opcodeLimit]; omega),
    if_neg (by simp [Config.encOperandLimit]; omega), Int.toNat_natCast, Int.toNat_natCast, hor]

/-- Outside its ranges the encoder port answers the error with both arguments. -/
theorem encodePort_of_not {opcode operand : Int}
    (h : ¬ ((0 ≤ opcode ∧ opcode < 128) ∧ (0 ≤ operand ∧ operand < 2 ^ 26))) :
    encodePort opcode operand = .error ⟨opcode, operand⟩ := by
  by_cases hop : 0 ≤ opcode ∧ opcode < 128
  · have hopd : ¬ (0 ≤ operand ∧ operand < 2 ^ 26) := fun hb => h ⟨hop, hb⟩
    exact (if_neg (not_not_intro hop)).trans (if_pos hopd)
  · exact if_pos hop

/-- The two arguments of an encoder port call that answers bytes, and the word it answers. -/
theorem encodePort_eq_ok {opcode operand : Int} {bytes : List Byte} (h : encodePort opcode operand = .ok bytes) :
    ∃ a b : Nat, a < 128 ∧ b < 2 ^ 26 ∧ bytes = wordBytes (joinWord (BitVec.ofNat 7 a) (BitVec.ofNat 33 b)) := by
  by_cases hr : (0 ≤ opcode ∧ opcode < 128) ∧ (0 ≤ operand ∧ operand < 2 ^ 26)
  · obtain ⟨⟨ha, ha'⟩, hb, hb'⟩ := hr
    lift opcode to Nat using ha
    lift operand to Nat using hb
    refine ⟨opcode, operand, by omega, by omega, ?_⟩
    rw [encodePort_of_lt (by omega) (by omega)] at h
    exact (Except.ok.inj h).symm
  · rw [encodePort_of_not hr] at h
    cases h

/-! ### The decoder port -/

/-- The decoder port on the bytes of a word: decoding the word, its error wrapped. -/
theorem decode_wordBytes (w : Word) : decode (wordBytes w) = (decodeWord w).mapError .unknownOpcode := by
  simp only [decode, wordBytes, leWord_wordByte]
  cases decodeWord w <;> rfl

/-- The decoder port on five bytes: decoding their value, its error wrapped. -/
theorem decode_five (b0 b1 b2 b3 b4 : Byte) :
    decode [b0, b1, b2, b3, b4] = (decodeWord (leWord b0 b1 b2 b3 b4)).mapError .unknownOpcode := by
  rw [← wordBytes_leWord, decode_wordBytes]

/-- The length check of the decoder port. -/
theorem decode_of_length_ne {bytes : List Byte} (h : bytes.length ≠ 5) :
    decode bytes = .error (.badLength bytes.length) := by
  unfold decode
  split
  · simp at h
  · rfl

/-- A word whose opcode field names an instruction decodes to it. -/
theorem decodeWord_of_opcode {w : Word} {m : Mnemonic} (h : (splitWord w).1 = m.opcode) :
    decodeWord w = .ok (m.instr (splitWord w).2) := by
  simp [decodeWord, h, opcodeName_opcode]

/-- The opcode values that name nothing. -/
theorem opcodeName_eq_none {a : OpField} (h14 : a ≠ 14) (h11 : a ≠ 11) (h94 : a ≠ 94) (h69 : a ≠ 69) :
    opcodeName a = none := by
  rw [opcodeName, if_neg h14, if_neg h11, if_neg h94, if_neg h69]

/-- The same, on the value of the opcode field. -/
theorem opcodeName_eq_none_of_toNat {a : OpField} (h14 : a.toNat ≠ 14) (h11 : a.toNat ≠ 11) (h94 : a.toNat ≠ 94)
    (h69 : a.toNat ≠ 69) : opcodeName a = none :=
  opcodeName_eq_none (mt (congrArg BitVec.toNat) h14) (mt (congrArg BitVec.toNat) h11)
    (mt (congrArg BitVec.toNat) h94) (mt (congrArg BitVec.toNat) h69)

/-- A word whose opcode field names nothing decodes to the error with that field. -/
theorem decodeWord_of_opcodeName_eq_none {w : Word} (h : opcodeName (splitWord w).1 = none) :
    decodeWord w = .error (splitWord w).1 := by
  simp [decodeWord, h]

/-- A running machine that fetches a word which does not decode halts (40_execution_loop.md R114). -/
theorem step_of_decodeWord_error {s : State} {w : Word} {a : OpField} (hs : s.Fetches w)
    (hw : decodeWord w = .error a) : step s = .next (haltDecoding a s) := by
  obtain ⟨hrun, hpc, hfetch⟩ := hs
  simp [step, State.isRunning, hrun, hfetch, hw, Nat.not_le.2 hpc]

/-! ### The obligations -/

/-- Settles O7: both directions by `encodePort_of_lt`, since splitting and joining a word, and cutting and concatenating
its bytes, are inverse to each other. -/
theorem encoderDecoderRoundTrip : Obligations.EncoderDecoderRoundTrip := by
  refine ⟨fun a b ha hb => ?fields, fun b0 b1 b2 b3 b4 hhigh => ?words⟩
  case fields =>
    have hsplit := splitWord_joinWord (BitVec.ofNat 7 a) (BitVec.ofNat 33 b)
    refine ⟨_, _, _, _, _, encodePort_of_lt ha hb, ?_, fun m hm => ?named, fun ⟨h14, h11, h94, h69⟩ => ?illegal⟩
    · rw [leWord_wordByte, hsplit]
    case named =>
      rw [decode_five, leWord_wordByte, decodeWord_of_opcode (m := m) (by rw [hsplit, hm]), hsplit]
      rfl
    case illegal =>
      have hnone : opcodeName (BitVec.ofNat 7 a) = none := by
        have ha' : (BitVec.ofNat 7 a).toNat = a := Nat.mod_eq_of_lt ha
        rw [← ha'] at h14 h11 h94 h69
        exact opcodeName_eq_none_of_toNat h14 h11 h94 h69
      rw [decode_five, leWord_wordByte, decodeWord_of_opcodeName_eq_none (by rw [hsplit, hnone]), hsplit]
      rfl
  case words =>
    generalize hw : leWord b0 b1 b2 b3 b4 = w at hhigh ⊢
    rw [encodePort_of_lt (splitWord w).1.isLt ((highBits_eq_zero_iff w).1 hhigh), BitVec.ofNat_toNat, BitVec.ofNat_toNat,
      BitVec.setWidth_eq, BitVec.setWidth_eq, joinWord_splitWord, ← hw, wordBytes_leWord]

/-- Settles O2: a word is known by its fields, and every pair of fields is the split of its join. -/
theorem fieldSplitIsBijection : Obligations.FieldSplitIsBijection :=
  ⟨fun w => ⟨splitWord_fst_toNat w, splitWord_snd_toNat w⟩,
    ⟨splitWord_injective, fun (a, b) => ⟨joinWord a b, splitWord_joinWord a b⟩⟩,
    fun w hhigh => Nat.le_of_not_lt (mt (highBits_eq_zero_iff w).2 hhigh)⟩

/-- Settles O3: arguments in range are natural numbers, whose word is `encodePort_of_lt`'s. -/
theorem encoderPortOnAllIntegers : Obligations.EncoderPortOnAllIntegers := by
  refine fun opcode operand => ⟨fun ⟨⟨ha, ha'⟩, hb, hb'⟩ => ?_, encodePort_of_not⟩
  lift opcode to Nat using ha
  lift operand to Nat using hb
  refine ⟨opcode + operand * 2 ^ 7, by push_cast; rfl, by omega, ?_⟩
  rw [encodePort_of_lt (by omega) (by omega), joinWord_ofNat (by omega), wordBytes_ofNat _ (by omega)]

/-- Settles O4: the answered word has an operand below 2^26, so its high bits are zero. -/
theorem encodedWordsHaveZeroHighBits : Obligations.EncodedWordsHaveZeroHighBits := by
  intro opcode operand bytes h
  obtain ⟨a, b, -, hb, rfl⟩ := encodePort_eq_ok h
  have hhigh : (joinWord (BitVec.ofNat 7 a) (BitVec.ofNat 33 b)).extractLsb' 33 7 = 0 := by
    rw [highBits_eq_zero_iff, splitWord_joinWord, BitVec.toNat_ofNat]
    omega
  exact ⟨_, _, _, _, _, rfl, by rw [leWord_wordByte, hhigh], by rw [wordByte_four_highBits, hhigh]⟩

/-- Settles O5: the length check, then one case per opcode of the table and one for the rest. -/
theorem decoderPortOnAllBytes : Obligations.DecoderPortOnAllBytes := by
  refine ⟨fun bytes => decode_of_length_ne, fun b0 b1 b2 b3 b4 => ?_⟩
  rw [decode_five]
  generalize leWord b0 b1 b2 b3 b4 = w
  split_ifs with h14 h11 h94 h69
  · rw [decodeWord_of_opcode (m := .loadConst) h14]; rfl
  · rw [decodeWord_of_opcode (m := .readValue) h11]; rfl
  · rw [decodeWord_of_opcode (m := .writeValue) h94]; rfl
  · rw [decodeWord_of_opcode (m := .less) h69]; rfl
  · rw [decodeWord_of_opcodeName_eq_none (opcodeName_eq_none h14 h11 h94 h69)]; rfl

/-- Settles O6: the opcode field names nothing, so decoding answers it as the error and the step is R114's halt. -/
theorem otherOpcodesAreIllegal : Obligations.OtherOpcodesAreIllegal := by
  refine ⟨rfl, fun w h11 h14 h69 h94 => ?_⟩
  have hnone : opcodeName (splitWord w).1 = none := by
    rw [show 128 = 2 ^ 7 from rfl, ← splitWord_fst_toNat] at h11 h14 h69 h94
    exact opcodeName_eq_none_of_toNat h14 h11 h94 h69
  have herr := decodeWord_of_opcodeName_eq_none hnone
  refine ⟨herr, by rw [decode_wordBytes, herr]; rfl, fun s hs => ⟨_, step_of_decodeWord_error hs herr, rfl, rfl⟩⟩

/-- Settles O1: R71's sum by `leWord_toNat`; the fetch depends on the five bytes alone. -/
theorem littleEndianWordValue : Obligations.LittleEndianWordValue :=
  fun b0 b1 b2 b3 b4 => ⟨leWord_toNat b0 b1 b2 b3 b4, (leWord b0 b1 b2 b3 b4).isLt, fun _ _ => ifetch_of_drop⟩

end Sys2Proof.Machine
end

section
/-! PROOFS. The assembler port (30_encoding.md section 6): integer arguments, one line, one IR entry, and which error an
assembly reports, with the obligations on them. -/

namespace Sys2Proof.Machine

open Sys2Proof.Laws

/-! ### Integer arguments -/

/-- One or more ASCII decimal digits (30_encoding.md R89). -/
abbrev DecimalDigits (t : Text) : Prop := t ≠ [] ∧ ∀ c ∈ t, '0' ≤ c ∧ c ≤ '9'

theorem isDecimalDigit_iff (c : Char) : isDecimalDigit c = true ↔ '0' ≤ c ∧ c ≤ '9' := by
  simp only [isDecimalDigit, Bool.and_eq_true, decide_eq_true_eq]
  rfl

/-- The parser's number, summed from the most significant digit, is the number in base 10. -/
theorem decimalValue_eq_digitsValue (t : Text) : decimalValue t = digitsValue t := by
  induction t using List.reverseRecOn with
  | nil => rfl
  | append_singleton t c ih =>
    have hdec : decimalValue (t ++ [c]) = 10 * decimalValue t + digitNumber c := by simp [decimalValue]
    have hdig : digitsValue (t ++ [c]) = digitNumber c + 10 * digitsValue t := by
      simp [digitsValue, Nat.ofDigits_cons]
    rw [hdec, hdig, ih, Nat.add_comm]

theorem parseDigits_eq_some_iff (t : Text) (n : Nat) :
    parseDigits t = some n ↔ DecimalDigits t ∧ n = digitsValue t := by
  simp [parseDigits, isDecimalDigit_iff, decimalValue_eq_digitsValue, eq_comm (a := n)]

/-- Every form of an integer argument is a number read from digits, then given its sign by some `f`. -/
theorem parseDigits_map_eq_some_iff (f : Nat → Int) (t : Text) (v : Int) :
    (parseDigits t).map f = some v ↔ DecimalDigits t ∧ v = f (digitsValue t) := by
  simp only [Option.map_eq_some_iff, parseDigits_eq_some_iff]
  constructor
  · rintro ⟨n, ⟨hd, rfl⟩, rfl⟩
    exact ⟨hd, rfl⟩
  · rintro ⟨hd, rfl⟩
    exact ⟨_, ⟨hd, rfl⟩, rfl⟩

@[simp] theorem parseInteger_nil : parseInteger [] = none := rfl

@[simp] theorem parseInteger_plus (t : Text) : parseInteger ('+' :: t) = (parseDigits t).map Int.ofNat := rfl

@[simp] theorem parseInteger_minus (t : Text) :
    parseInteger ('-' :: t) = (parseDigits t).map (fun n : Nat => -(Int.ofNat n)) := rfl

/-- Without a sign in front, the text itself must be digits. -/
theorem parseInteger_unsigned {c : Char} {t : Text} (hplus : c ≠ '+') (hminus : c ≠ '-') :
    parseInteger (c :: t) = (parseDigits (c :: t)).map Int.ofNat := by
  simp [parseInteger, hplus, hminus]

/-- Digits alone parse as digits: a digit is no sign. -/
theorem parseInteger_of_decimalDigits {t : Text} (h : DecimalDigits t) : parseInteger t = some (digitsValue t : Int) := by
  obtain ⟨hne, hdigits⟩ := h
  obtain ⟨c, rest, rfl⟩ := List.exists_cons_of_ne_nil hne
  have hc := hdigits c List.mem_cons_self
  have hplus : c ≠ '+' := by rintro rfl; exact absurd hc (by decide)
  have hminus : c ≠ '-' := by rintro rfl; exact absurd hc (by decide)
  rw [parseInteger_unsigned hplus hminus, parseDigits_map_eq_some_iff]
  exact ⟨⟨hne, hdigits⟩, rfl⟩

/-- What a text that parses looks like: digits, a plus and digits, or a minus and digits. -/
theorem parseInteger_eq_some {t : Text} {v : Int} (h : parseInteger t = some v) :
    ∃ digits, DecimalDigits digits ∧
      ((t = digits ∨ t = '+' :: digits) ∧ v = (digitsValue digits : Int) ∨
       t = '-' :: digits ∧ v = -(digitsValue digits : Int)) := by
  cases t with
  | nil => cases h
  | cons c rest =>
    by_cases hplus : c = '+'
    · subst hplus
      rw [parseInteger_plus, parseDigits_map_eq_some_iff] at h
      obtain ⟨hd, rfl⟩ := h
      exact ⟨rest, hd, .inl ⟨.inr rfl, rfl⟩⟩
    by_cases hminus : c = '-'
    · subst hminus
      rw [parseInteger_minus, parseDigits_map_eq_some_iff] at h
      obtain ⟨hd, rfl⟩ := h
      exact ⟨rest, hd, .inr ⟨rfl, rfl⟩⟩
    · rw [parseInteger_unsigned hplus hminus, parseDigits_map_eq_some_iff] at h
      obtain ⟨hd, rfl⟩ := h
      exact ⟨c :: rest, hd, .inl ⟨.inl rfl, rfl⟩⟩

/-! ### One line -/

/-- A line without a `;` is a `SyntaxError`. -/
theorem parseLine_of_no_argument {line : Text} (hne : strip (dropComment line) ≠ [])
    (h : (splitArgument (strip (dropComment line))).2 = none) :
    parseLine line = .error (.syntaxError (splitArgument (strip (dropComment line))).1) := by
  simp [parseLine, hne, h]

/-- A line whose argument does not parse is a `SyntaxError`. -/
theorem parseLine_of_bad_argument {line arg : Text} (hne : strip (dropComment line) ≠ [])
    (h : (splitArgument (strip (dropComment line))).2 = some arg) (harg : parseInteger arg = none) :
    parseLine line = .error (.syntaxError (splitArgument (strip (dropComment line))).1) := by
  simp [parseLine, hne, h, harg]

/-! ### One IR entry -/

/-- Every mnemonic's spelling names it, so no two are spelled alike. -/
@[simp] theorem findMnemonic_mnemonicText (m : Mnemonic) : findMnemonic (mnemonicText m) = some m := by
  cases m <;> decide

theorem findMnemonic_eq_none {t : Text} (h : ∀ m, mnemonicText m ≠ t) : findMnemonic t = none := by
  simp [findMnemonic, h]

theorem lowerEntry_of_unknown {t : Text} (h : ∀ m, mnemonicText m ≠ t) (arg : Int) :
    lowerEntry ⟨t, arg⟩ = .error (.unknownMnemonic t) := by
  simp [lowerEntry, findMnemonic_eq_none h]

/-- An entry of a known mnemonic is lowered by the encoder port. -/
theorem lowerEntry_mnemonicText (m : Mnemonic) (arg : Int) :
    lowerEntry ⟨mnemonicText m, arg⟩ = (encodePort (m.opcode.toNat : Int) arg).mapError .encoding := by
  simp only [lowerEntry, findMnemonic_mnemonicText]
  cases encodePort (m.opcode.toNat : Int) arg <;> rfl

/-- The word of a named instruction has its name's opcode and its operand. -/
theorem encode_instr (m : Mnemonic) (b : Operand) : encode (m.instr b) = wordBytes (joinWord m.opcode b) := by
  cases m <;> rfl

/-- On a mnemonic's opcode and an operand in range the encoder port answers the instruction's bytes. -/
theorem encodePort_opcode (m : Mnemonic) {b : Nat} (hb : b < 2 ^ 26) :
    encodePort (m.opcode.toNat : Int) (b : Int) = .ok (encode (m.instr (BitVec.ofNat 33 b))) := by
  rw [encodePort_of_lt m.opcode.isLt hb, BitVec.ofNat_toNat, BitVec.setWidth_eq, encode_instr]

/-! ### The first error of an assembly -/

theorem parseLines_of_first_error {before after : List Text} {line : Text} {e : AsmError}
    (hbefore : ∀ l ∈ before, ∃ entry, parseLine l = .ok entry) (h : parseLine line = .error e) :
    parseLines (before ++ line :: after) = .error e := by
  induction before with
  | nil => simp [parseLines, h]
  | cons l rest ih =>
    obtain ⟨entry, hl⟩ := hbefore l List.mem_cons_self
    simp [parseLines, hl, ih fun x hx => hbefore x (List.mem_cons_of_mem l hx)]

theorem lower_of_first_error {before after : List IrEntry} {entry : IrEntry} {e : AsmError}
    (hbefore : ∀ x ∈ before, ∃ bytes, lowerEntry x = .ok bytes) (h : lowerEntry entry = .error e) :
    lower (before ++ entry :: after) = .error e := by
  induction before with
  | nil => simp [lower, h]
  | cons x rest ih =>
    obtain ⟨bytes, hx⟩ := hbefore x List.mem_cons_self
    simp [lower, hx, ih fun y hy => hbefore y (List.mem_cons_of_mem x hy)]

/-- A source of white space alone has no IR, so no pass finds an error in it. -/
theorem parseLines_of_strip_eq_nil {source : Text} (h : strip source = []) :
    parseLines (splitLines (strip source)) = .ok [] := by
  rw [h]
  rfl

/-- An error of the first pass is the assembly's. -/
theorem assemble_of_parse_error {source : Text} {e : AsmError}
    (h : parseLines (splitLines (strip source)) = .error e) : assemble source = .error e := by
  have hne : strip source ≠ [] := fun hnil => by simp [parseLines_of_strip_eq_nil hnil] at h
  simp [assemble, hne, h]

/-- After a first pass without error, an error of the second pass is the assembly's. -/
theorem assemble_of_lower_error {source : Text} {ir : List IrEntry} {e : AsmError}
    (hparse : parseLines (splitLines (strip source)) = .ok ir) (h : lower ir = .error e) : assemble source = .error e := by
  have hne : strip source ≠ [] := fun hnil => by
    obtain rfl : [] = ir := Except.ok.inj ((parseLines_of_strip_eq_nil hnil).symm.trans hparse)
    cases h
  simp [assemble, hne, hparse, h]

/-! ### The obligations -/

/-- Settles O45: `parseInteger_eq_some` is one direction; the other is one parser equation per form. -/
theorem integerArgumentGrammar : Obligations.IntegerArgumentGrammar := by
  refine ⟨fun t v => ⟨fun h => ?parsed, ?written⟩, fun line arg => parseLine_of_bad_argument⟩
  case parsed =>
    obtain ⟨digits, ⟨hne, hdigits⟩, hform⟩ := parseInteger_eq_some h
    exact ⟨digits, hne, hdigits, hform⟩
  case written =>
    rintro ⟨digits, hne, hdigits, ⟨rfl | rfl, rfl⟩ | ⟨rfl, rfl⟩⟩
    · exact parseInteger_of_decimalDigits ⟨hne, hdigits⟩
    · rw [parseInteger_plus, parseDigits_map_eq_some_iff]
      exact ⟨⟨hne, hdigits⟩, rfl⟩
    · rw [parseInteger_minus, parseDigits_map_eq_some_iff]
      exact ⟨⟨hne, hdigits⟩, rfl⟩

/-- Settles O46: with no `;` there is no argument to parse, and an empty argument does not parse. -/
theorem missingArgumentIsSyntaxError : Obligations.MissingArgumentIsSyntaxError :=
  fun _ hne h => h.elim (parseLine_of_no_argument hne) fun hempty => parseLine_of_bad_argument hne hempty parseInteger_nil

/-- Settles O47: the lookup finds the mnemonic, whose opcode is in range, so the argument alone decides. -/
theorem loweringOneEntry : Obligations.LoweringOneEntry := by
  refine ⟨fun m arg h0 hlt => ?inRange, fun m arg hout => ?outOfRange, fun t arg h => lowerEntry_of_unknown h arg⟩
  case inRange =>
    lift arg to Nat using h0
    have henc := encodePort_opcode m (b := arg) (by omega)
    rw [BitVec.ofInt_natCast]
    exact ⟨by rw [lowerEntry_mnemonicText, henc]; rfl, henc⟩
  case outOfRange =>
    rw [lowerEntry_mnemonicText, encodePort_of_not (by omega)]
    rfl

/-- Settles O48: each pass stops at its first error, and the first pass comes before the second. -/
theorem firstErrorIsReported : Obligations.FirstErrorIsReported := by
  refine ⟨fun source line before after e hsplit hbefore hline => ?parse,
    fun source before after entry e hparse hbefore hentry => ?lower, fun m arg e he hm => ?unknown⟩
  case parse => exact assemble_of_parse_error (hsplit ▸ parseLines_of_first_error hbefore hline)
  case lower => exact assemble_of_lower_error hparse (lower_of_first_error hbefore hentry)
  case unknown => exact Except.error.inj (he.symm.trans (lowerEntry_of_unknown hm arg))

end Sys2Proof.Machine
end

section
/-! PROOFS. The execution loop (40_execution_loop.md): what an executed instruction leaves, the step as one function of
the fetched word, the end of every run, and the obligations of the family. -/

namespace Sys2Proof.Machine

/-! ### What an instruction inside memory leaves -/

/-- The accumulator after an instruction whose address, if any, is inside memory. -/
def accAfter (i : Instr) (acc : Cell) (m : Memory) : Cell :=
  match i with
  | .loadConst b => immediate b
  | .readValue b => m.read (cellAddress b)
  | .writeValue _ => acc
  | .less _ => acc

/-- The data memory after an instruction whose address, if any, is inside memory. -/
def dmemAfter (i : Instr) (acc : Cell) (m : Memory) : Memory :=
  match i with
  | .loadConst _ => m
  | .readValue _ => m
  | .writeValue b => m.write (cellAddress b) acc
  | .less b => m.write (cellAddress b) (lessThan (m.read (cellAddress b)) acc)

/-- Inside memory an instruction answers a state with a new accumulator and a new data memory, all else kept. -/
theorem exec_of_inside {i : Instr} {s : State} (h : outsideMemory s.memSize i = false) :
    exec i s = .next { s with acc := accAfter i s.acc s.dmem, dmem := dmemAfter i s.acc s.dmem } := by
  cases i with
  | loadConst b => rfl
  | readValue b =>
    have hv : s.ValidAddress b := by simpa [outsideMemory, cellAddress] using h
    simp [exec, execReadValue, memRead_of_valid hv, State.setAcc, accAfter, dmemAfter]
  | writeValue b =>
    have hv : s.ValidAddress b := by simpa [outsideMemory, cellAddress] using h
    simp [exec, execWriteValue, memWrite_of_valid hv, State.setDmem, accAfter, dmemAfter]
  | less b =>
    have hv : s.ValidAddress b := by simpa [outsideMemory, cellAddress] using h
    simp [exec, execLess, memRead_of_valid hv, memWrite_of_valid hv, State.setDmem, accAfter, dmemAfter]

/-- Outside memory every instruction that has an address is the memory halt. -/
theorem exec_of_outside {i : Instr} {s : State} (h : outsideMemory s.memSize i = true) :
    exec i s = .next (haltMemory ⟨i.operand⟩ s) := by
  cases i with
  | loadConst b => cases h
  | readValue b =>
    have hv : ¬ s.ValidAddress b := by simpa [outsideMemory, cellAddress] using h
    simp [exec, execReadValue, memRead_of_invalid hv, Instr.operand]
  | writeValue b =>
    have hv : ¬ s.ValidAddress b := by simpa [outsideMemory, cellAddress] using h
    simp [exec, execWriteValue, memWrite_of_invalid hv, Instr.operand]
  | less b =>
    have hv : ¬ s.ValidAddress b := by simpa [outsideMemory, cellAddress] using h
    simp [exec, execLess, memRead_of_invalid hv, Instr.operand]

/-! ### The halts written out -/

theorem haltError_eq (cause : Cause) (info : BitVec 33) (s : State) : haltError cause info s = { s with
    status := { state := .haltedError, cause := cause, faultPc := s.pc, faultInfo := info }
    log := s.log ++ [.error s.pc cause info, s.summary] } := by
  rw [← List.singleton_append, ← List.append_assoc]
  rfl

theorem haltMemory_traceExec_eq (i : Instr) (s : State) : haltMemory ⟨i.operand⟩ (traceExec i s) = { s with
    status := { state := .haltedError, cause := .memoryAccessError, faultPc := s.pc, faultInfo := i.operand }
    log := s.log ++ [.exec s.pc i.mnemonic i.operand s.acc, .error s.pc .memoryAccessError i.operand, s.summary] } := by
  rw [← List.singleton_append, ← List.append_assoc]
  exact haltError_eq .memoryAccessError i.operand (traceExec i s)

/-! ### The step as a function of the fetched word -/

/-- The state after a step that fetches `w` (40_execution_loop.md R114 to R119). -/
def State.afterWord (s : State) (w : Word) : State :=
  match decodeWord w with
  | .error a => haltDecoding a s
  | .ok i =>
    if outsideMemory s.memSize i then haltMemory ⟨i.operand⟩ (traceExec i s)
    else { s with
      acc := accAfter i s.acc s.dmem, dmem := dmemAfter i s.acc s.dmem
      pc := s.pc + 1, log := s.log ++ [.exec s.pc i.mnemonic i.operand s.acc] }

theorem State.afterWord_of_illegal {s : State} {w : Word} {a : OpField} (hw : decodeWord w = .error a) :
    s.afterWord w = haltDecoding a s := by
  simp [State.afterWord, hw]

theorem State.afterWord_of_outside {s : State} {w : Word} {i : Instr} (hw : decodeWord w = .ok i)
    (hout : outsideMemory s.memSize i = true) : s.afterWord w = haltMemory ⟨i.operand⟩ (traceExec i s) := by
  simp [State.afterWord, hw, hout]

theorem State.afterWord_of_inside {s : State} {w : Word} {i : Instr} (hw : decodeWord w = .ok i)
    (hin : outsideMemory s.memSize i = false) : s.afterWord w = { s with
      acc := accAfter i s.acc s.dmem, dmem := dmemAfter i s.acc s.dmem
      pc := s.pc + 1, log := s.log ++ [.exec s.pc i.mnemonic i.operand s.acc] } := by
  simp [State.afterWord, hw, hin]

/-- The three ways to leave a fetched word. -/
theorem State.afterWord_cases (s : State) (w : Word) :
    (∃ a, s.afterWord w = haltDecoding a s) ∨
    (∃ i, s.afterWord w = haltMemory ⟨i.operand⟩ (traceExec i s)) ∨
    (∃ i : Instr, s.afterWord w = { s with
      acc := accAfter i s.acc s.dmem, dmem := dmemAfter i s.acc s.dmem
      pc := s.pc + 1, log := s.log ++ [.exec s.pc i.mnemonic i.operand s.acc] }) := by
  cases hw : decodeWord w with
  | error a => exact .inl ⟨a, afterWord_of_illegal hw⟩
  | ok i =>
    cases hmem : outsideMemory s.memSize i with
    | true => exact .inr (.inl ⟨i, afterWord_of_outside hw hmem⟩)
    | false => exact .inr (.inr ⟨i, afterWord_of_inside hw hmem⟩)

/-- Program memory and `N` are not written. -/
theorem State.afterWord_program (s : State) (w : Word) : (s.afterWord w).imem = s.imem ∧ (s.afterWord w).n = s.n := by
  obtain ⟨a, h⟩ | ⟨i, h⟩ | ⟨i, h⟩ := s.afterWord_cases w <;> rw [h] <;> exact ⟨rfl, rfl⟩

/-- A running machine that fetches a word always completes the step. -/
theorem step_of_fetches {s : State} {w : Word} (hs : s.Fetches w) : step s = .next (s.afterWord w) := by
  cases hw : decodeWord w with
  | error a => rw [step_of_decodeWord_error hs hw, State.afterWord_of_illegal hw]
  | ok i =>
    obtain ⟨hrun, hpc, hfetch⟩ := hs
    cases hmem : outsideMemory s.memSize i with
    | true =>
      have hexec := exec_of_outside (s := traceExec i s) hmem
      have hadvance (e : MemoryAccessError) (u : State) : advance (haltMemory e u) = haltMemory e u := rfl
      simp [step, State.isRunning, hrun, hfetch, hw, Nat.not_le.2 hpc, hexec, hadvance,
        State.afterWord_of_outside hw hmem]
    | false =>
      have hexec := exec_of_inside (s := traceExec i s) hmem
      simp [step, State.isRunning, hrun, hfetch, hw, Nat.not_le.2 hpc, hexec, advance_eq, State.setPc,
        State.afterWord_of_inside hw hmem]

/-- At `PC >= N` a running machine ends normally. -/
theorem step_of_end {s : State} (hrun : s.status.state = .running) (hpc : s.n ≤ s.pc) :
    step s = .next (haltNormal s) := by
  simp [step, State.isRunning, hrun, hpc]

/-- Every step is the normal end or the step of a fetched word. -/
theorem step_eq_next {s t : State} (h : step s = .next t) :
    s.status.state = .running ∧ ((s.n ≤ s.pc ∧ t = haltNormal s) ∨ ∃ w, s.Fetches w ∧ t = s.afterWord w) := by
  obtain ⟨hrun, ⟨hpc, rfl⟩ | ⟨hpc, w, hfetch, -⟩⟩ := step_cases h
  · exact ⟨hrun, .inl ⟨hpc, rfl⟩⟩
  · have hs : s.Fetches w := ⟨hrun, hpc, hfetch⟩
    rw [step_of_fetches hs] at h
    cases h
    exact ⟨hrun, .inr ⟨w, hs, rfl⟩⟩

/-- No step writes program memory or `N`. -/
theorem step_keeps_program {s t : State} (h : step s = .next t) : t.imem = s.imem ∧ t.n = s.n := by
  obtain ⟨-, ⟨-, rfl⟩ | ⟨w, -, rfl⟩⟩ := step_eq_next h
  · exact ⟨rfl, rfl⟩
  · exact s.afterWord_program w

/-! ### Every run ends -/

/-- Where `N` is the count of `IMEM`, the fetch below `N` cannot fail. -/
theorem exists_fetches {s : State} (hrun : s.status.state = .running) (hn : s.n = instrCount s.imem)
    (hpc : s.pc < s.n) : ∃ w, s.Fetches w :=
  ⟨_, hrun, hpc, ifetch_of_lt (lt_length_of_lt_instrCount (hn ▸ hpc))⟩

/-- A step ends the run, or it was below `N` and `PC` moves on by one. -/
theorem step_ends_or_advances {s t : State} (h : step s = .next t) :
    t.status.state ≠ .running ∨ (s.pc < s.n ∧ t.pc = s.pc + 1) := by
  obtain ⟨-, ⟨-, rfl⟩ | ⟨w, ⟨-, hpc, -⟩, rfl⟩⟩ := step_eq_next h
  · exact .inl (by simp)
  · obtain ⟨a, hw⟩ | ⟨i, hw⟩ | ⟨i, hw⟩ := s.afterWord_cases w <;> rw [hw]
    · exact .inl (by simp [haltDecoding])
    · exact .inl (by simp [haltMemory])
    · exact .inr ⟨hpc, rfl⟩

/-- A running machine whose `N` is the count of `IMEM` takes a step. -/
theorem exists_step {s : State} (hrun : s.status.state = .running) (hn : s.n = instrCount s.imem) :
    ∃ t, step s = .next t := by
  obtain hpc | hpc := Nat.lt_or_ge s.pc s.n
  · obtain ⟨w, hs⟩ := exists_fetches hrun hn hpc
    exact ⟨_, step_of_fetches hs⟩
  · exact ⟨_, step_of_end hrun hpc⟩

theorem runFrom_succ {s t : State} (h : step s = .next t) (k : Nat) : runFrom (k + 1) s = runFrom k t := by
  obtain ⟨hrun, -⟩ := step_eq_next h
  simp [runFrom, State.isRunning, hrun, h]

/-- `N + 1 - PC` steps are enough to end a run, by induction on the steps left. -/
theorem runFrom_ends {k : Nat} {s : State} (hn : s.n = instrCount s.imem) (hpc : s.pc ≤ s.n) (hk : s.n + 1 ≤ s.pc + k) :
    ∃ t, runFrom k s = .next t ∧ t.status.state ≠ .running := by
  induction k generalizing s with
  | zero => omega
  | succ k ih =>
    by_cases hrun : s.status.state = .running
    · obtain ⟨t, ht⟩ := exists_step hrun hn
      rw [runFrom_succ ht]
      obtain ⟨himem, htn⟩ := step_keeps_program ht
      obtain hend | ⟨hlt, htpc⟩ := step_ends_or_advances ht
      · exact ⟨t, runFrom_of_ended hend k, hend⟩
      · exact ih (by rw [htn, himem, hn]) (by omega) (by omega)
    · exact ⟨s, runFrom_of_ended hrun _, hrun⟩

/-- On a fresh state the interpreter port is the run of the loaded bytecode. -/
theorem execute_of_fresh {s : State} (h : s.Fresh) (bytes : List Byte) :
    execute bytes s = runFrom (instrCount bytes + 1) (s.loadBytecode bytes) := if_pos h

/-- Settles O42: each step ends the run or raises `PC`, and below `N` the fetch cannot fail, so `N + 1` steps suffice. -/
theorem everyRunEnds : Obligations.EveryRunEnds := by
  refine ⟨fun s t _ h => (step_ends_or_advances h).imp_right And.right,
    fun s _ hrun hpc => ⟨_, step_of_end hrun hpc.ge, by simp⟩, fun bytes s hfresh => ?_⟩
  have hpc : (s.loadBytecode bytes).pc = 0 := hfresh.1
  obtain ⟨t, ht, hend⟩ := runFrom_ends (k := instrCount bytes + 1) (s := s.loadBytecode bytes) rfl
    (hpc ▸ Nat.zero_le _) (Nat.le_add_left _ _)
  exact ⟨t, ht, (execute_of_fresh hfresh bytes).trans ht, hend⟩

/-! ### One step -/

/-- Settles O24: the step of an illegal word is the decoding halt, which writes `STATUS` and the log. -/
theorem decodeFailureHalts : Obligations.DecodeFailureHalts := by
  intro s w a hs hw
  rw [step_of_decodeWord_error hs hw, haltDecoding, haltError_eq]

/-- Settles O27: the memory halt is taken on the state with the `Exec` entry and is not followed by the increment. -/
theorem memoryErrorHalts : Obligations.MemoryErrorHalts := by
  intro s w i hs hw hout
  rw [step_of_fetches hs, State.afterWord_of_outside hw hout, haltMemory_traceExec_eq]

/-- Settles O25: inside memory the `Exec` entry is all; outside, the halt appends its two entries after it. -/
theorem traceComesBeforeExecution : Obligations.TraceComesBeforeExecution := by
  intro s w i hs hw
  cases hmem : outsideMemory s.memSize i with
  | false =>
    refine ⟨_, [], step_of_fetches hs, ?_, fun _ => rfl, by simp⟩
    rw [State.afterWord_of_inside hw hmem, List.append_nil]
  | true =>
    refine ⟨_, [.error s.pc .memoryAccessError i.operand, s.summary], step_of_fetches hs, ?_, by simp, fun _ => rfl⟩
    rw [State.afterWord_of_outside hw hmem, haltMemory_traceExec_eq, List.append_assoc, List.singleton_append]

/-- Settles O26: inside memory `STATUS` stays and `PC` moves on by one; the memory halt leaves `PC`. -/
theorem programCounterMovesByOne : Obligations.ProgramCounterMovesByOne := by
  intro s w i hs hw
  refine ⟨_, step_of_fetches hs, ?_⟩
  cases hmem : outsideMemory s.memSize i with
  | false =>
    rw [State.afterWord_of_inside hw hmem]
    exact ⟨fun _ => rfl, fun hend => absurd hs.1 hend, fun _ => rfl⟩
  | true =>
    rw [State.afterWord_of_outside hw hmem]
    exact ⟨by simp [haltMemory], fun _ => rfl, by simp⟩

/-- While a run goes on, the invariant leaves no cause in `STATUS`. -/
theorem State.Inv.cause_of_running {s : State} (h : s.Inv) (hrun : s.status.state = .running) :
    s.status.cause = .none := by
  obtain ⟨-, -, -, -, -, -, hlegal, -⟩ := h
  simp only [Status.Legal, hrun, reduceCtorEq, if_false] at hlegal
  exact hlegal.1

/-- No step gives the cause `DispatchError` to a state without a cause (40_execution_loop.md R117). -/
theorem step_cause_ne_dispatchError {s t : State} (hcause : s.status.cause = .none) (h : step s = .next t) :
    t.status.cause ≠ .dispatchError := by
  obtain ⟨-, ⟨-, rfl⟩ | ⟨w, -, rfl⟩⟩ := step_eq_next h
  · simp [hcause]
  · obtain ⟨a, hw⟩ | ⟨i, hw⟩ | ⟨i, hw⟩ := s.afterWord_cases w <;> rw [hw]
    · simp [haltDecoding]
    · simp [haltMemory]
    · simp [hcause]

/-- Settles O22: the normal end, and below `N` one equation of the step per way to leave the fetched word. -/
theorem sequencerStep : Obligations.SequencerStep := by
  intro s hinv hrun
  refine ⟨step_of_end hrun, fun hpc => ?below, fun t => step_cause_ne_dispatchError (hinv.cause_of_running hrun)⟩
  case below =>
    obtain ⟨-, -, -, hn, -⟩ := hinv
    obtain ⟨w, hs⟩ := exists_fetches hrun hn hpc
    refine ⟨w, hs.2.2, fun a => decodeFailureHalts s w a hs, fun i => memoryErrorHalts s w i hs,
      fun i hw hin => ⟨_, exec_of_inside hin, ?_⟩⟩
    rw [step_of_fetches hs, State.afterWord_of_inside hw hin]

/-- A step below `N` is no normal end. -/
theorem step_state_ne_haltedNormal {s t : State} (hpc : s.pc < s.n) (h : step s = .next t) :
    t.status.state ≠ .haltedNormal := by
  obtain ⟨hrun, ⟨hge, -⟩ | ⟨w, -, rfl⟩⟩ := step_eq_next h
  · omega
  · obtain ⟨a, hw⟩ | ⟨i, hw⟩ | ⟨i, hw⟩ := s.afterWord_cases w <;> rw [hw]
    · simp [haltDecoding]
    · simp [haltMemory]
    · simp [hrun]

/-- A bytecode without a whole word ends normally at the first step. -/
theorem execute_of_instrCount_zero {s : State} {bytes : List Byte} (hfresh : s.Fresh) (hzero : instrCount bytes = 0) :
    execute bytes s = .next (haltNormal (s.loadBytecode bytes)) := by
  have hrun : (s.loadBytecode bytes).status.state = .running := by
    obtain ⟨-, -, -, hstatus, -⟩ := hfresh
    exact congrArg Status.state hstatus
  have hend : (s.loadBytecode bytes).n ≤ (s.loadBytecode bytes).pc := hzero.trans_le (Nat.zero_le _)
  rw [execute_of_fresh hfresh, runFrom_succ (step_of_end hrun hend)]
  exact runFrom_of_ended (by simp) _

/-- Settles O23: `PC <= N` is in the invariant, and only the step at `N` is the normal end. -/
theorem normalTermination : Obligations.NormalTermination := by
  refine ⟨fun s hinv hrun => ?_, fun s hfresh => ⟨_, execute_of_instrCount_zero hfresh rfl, hfresh.1, rfl, rfl⟩⟩
  obtain ⟨-, -, -, -, hle, -⟩ := hinv
  exact ⟨hle, fun hpc t => step_state_ne_haltedNormal hpc, fun hpc => step_of_end hrun hpc.ge⟩

/-! ### The trailing fragment -/

/-- The state with another program memory, `N` staying as latched. -/
def State.setImem (s : State) (m : List Byte) : State := { s with imem := m }

/-- Program memory beyond the fetched word has no effect: what a word does does not depend on it. -/
theorem State.afterWord_setImem (s : State) (m : List Byte) (w : Word) :
    (s.setImem m).afterWord w = (s.afterWord w).setImem m := by
  cases hw : decodeWord w with
  | error a => rw [afterWord_of_illegal hw, afterWord_of_illegal hw]; rfl
  | ok i =>
    cases hmem : outsideMemory s.memSize i with
    | true => rw [afterWord_of_outside hw hmem, afterWord_of_outside (s := s.setImem m) hw hmem]; rfl
    | false => rw [afterWord_of_inside hw hmem, afterWord_of_inside (s := s.setImem m) hw hmem]; rfl

/-- With a program memory that gives the same words below `N`, a step does the same. -/
theorem step_setImem {s t : State} {m : List Byte} (hm : ∀ k < s.n, ifetch m k = ifetch s.imem k)
    (h : step s = .next t) : step (s.setImem m) = .next (t.setImem m) := by
  obtain ⟨hrun, ⟨hpc, rfl⟩ | ⟨w, ⟨-, hpc, hfetch⟩, rfl⟩⟩ := step_eq_next h
  · exact step_of_end (s := s.setImem m) hrun hpc
  · have hs : (s.setImem m).Fetches w := ⟨hrun, hpc, (hm s.pc hpc).trans hfetch⟩
    rw [step_of_fetches hs, State.afterWord_setImem]

/-- A run with at least one step left takes it, unless it has ended. -/
theorem runFrom_succ_cases {k : Nat} {s t : State} (h : runFrom (k + 1) s = .next t) :
    (s.status.state ≠ .running ∧ t = s) ∨ ∃ u, step s = .next u ∧ runFrom k u = .next t := by
  by_cases hrun : s.status.state = .running
  · simp only [runFrom, State.isRunning, hrun, decide_true, if_true] at h
    split at h
    · exact .inr ⟨_, ‹_›, h⟩
    · cases h
    · cases h
  · rw [runFrom_of_ended hrun] at h
    cases h
    exact .inl ⟨hrun, rfl⟩

/-- With a program memory that gives the same words below `N`, a run does the same. -/
theorem runFrom_setImem {m : List Byte} {k : Nat} {s t : State} (hm : ∀ j < s.n, ifetch m j = ifetch s.imem j)
    (h : runFrom k s = .next t) : runFrom k (s.setImem m) = .next (t.setImem m) := by
  induction k generalizing s with
  | zero =>
    cases h
    rfl
  | succ k ih =>
    obtain ⟨hend, rfl⟩ | ⟨u, hu, hrest⟩ := runFrom_succ_cases h
    · exact runFrom_of_ended (s := t.setImem m) hend _
    · obtain ⟨himem, hn⟩ := step_keeps_program hu
      rw [runFrom_succ (step_setImem hm hu)]
      exact ih (by rwa [himem, hn]) hrest

/-- Bytes behind a bytecode do not change its whole words. -/
theorem ifetch_append {bytes : List Byte} {k : Nat} (h : k < instrCount bytes) (tail : List Byte) :
    ifetch (bytes ++ tail) k = ifetch bytes k := by
  have hlen := lt_length_of_lt_instrCount h
  have hlen' : 5 * k + 4 < (bytes ++ tail).length := by rw [List.length_append]; omega
  rw [ifetch_of_lt hlen, ifetch_of_lt hlen']
  congr 2 <;> exact List.getElem_append_left _

/-- A fragment behind whole words adds no word. -/
theorem instrCount_append {bytes tail : List Byte} (hbytes : bytes.length % 5 = 0) (htail : tail.length < 5) :
    instrCount (bytes ++ tail) = instrCount bytes := by
  simp only [instrCount, Config.wordBytes, List.length_append]
  omega

/-- Settles O41: the two runs go in step, since they latch the same `N` and fetch the same words below it. -/
theorem trailingFragmentIsIgnored : Obligations.TrailingFragmentIsIgnored := by
  intro bytes tail s t hbytes htail h
  have hn := instrCount_append hbytes htail
  have hfresh : s.Fresh := by
    by_contra hnot
    rw [execute, if_neg hnot] at h
    cases h
  rw [execute_of_fresh hfresh] at h
  have hload : s.loadBytecode (bytes ++ tail) = (s.loadBytecode bytes).setImem (bytes ++ tail) := by
    simp [State.loadBytecode, State.setImem, hn]
  have hrun := runFrom_setImem (m := bytes ++ tail) (fun j hj => ifetch_append hj tail) h
  refine ⟨hn, t.setImem (bytes ++ tail), ?_, rfl⟩
  rw [execute_of_fresh hfresh, hn, hload, hrun]

end Sys2Proof.Machine
end

section
/-! PROOFS. The data transfer instructions (41_data_transfer.md): canonical memories as their cells, the memory of a launch,
one rule per instruction inside memory and one for the address error, and the three obligations of the family. -/

namespace Sys2Proof.Machine

/-! ### A canonical memory is its cells -/

/-- Where addresses rise, a listed pair is what its address reads as. -/
theorem Memory.read_of_mem {m : Memory} (h : m.Pairwise (fun c d => c.1 < d.1)) {c : Nat × Cell} (hc : c ∈ m) :
    m.read c.1 = c.2 := by
  induction m with
  | nil => cases hc
  | cons d m ih =>
    obtain ⟨hd, hm⟩ := List.pairwise_cons.1 h
    rcases List.mem_cons.1 hc with rfl | hc
    · rw [Memory.read_cons, if_pos rfl]
    · rw [Memory.read_cons, if_neg (hd c hc).ne, ih hm hc]

/-- The pairs of a canonical memory are the cells that differ from an unlisted one. -/
theorem Memory.mem_iff_read {m : Memory} (h : m.wf) (c : Nat × Cell) :
    c ∈ m ↔ m.read c.1 = c.2 ∧ c.2 ≠ Memory.unlisted := by
  constructor
  · exact fun hc => ⟨Memory.read_of_mem h.1 hc, h.2 c hc⟩
  · rintro ⟨hread, hne⟩
    by_contra hnot
    refine hne (hread.symm.trans (Memory.read_of_not_mem m c.1 fun d hd haddr => ?_))
    have hval : d.2 = c.2 := by rw [← Memory.read_of_mem h.1 hd, haddr, hread]
    exact hnot (Prod.ext haddr hval ▸ hd)

/-- Canonical memories that read alike list the same pairs in the same order. -/
theorem Memory.eq_of_read_eq {m m' : Memory} (h : m.wf) (h' : m'.wf) (hread : ∀ a, m.read a = m'.read a) : m = m' := by
  have hmem (c : Nat × Cell) : c ∈ m ↔ c ∈ m' := by rw [Memory.mem_iff_read h, Memory.mem_iff_read h', hread]
  have hperm : m.Perm m' := (List.perm_ext_iff_of_nodup (h.1.imp fun hlt e => hlt.ne (congrArg _ e))
    (h'.1.imp fun hlt e => hlt.ne (congrArg _ e))).2 hmem
  exact hperm.eq_of_pairwise (fun c d _ _ hcd hdc => absurd hcd hdc.asymm) h.1 h'.1

/-- Writing back what a cell of a canonical memory holds leaves the memory as it is. -/
theorem Memory.write_read_self {m : Memory} (h : m.wf) (a : Nat) : m.write a (m.read a) = m := by
  refine Memory.eq_of_read_eq (Memory.write_wf h _ _) h fun b => ?_
  rw [Memory.read_write]
  split
  · rw [‹b = a›]
  · rfl

/-! ### The memory of a launch -/

theorem Memory.mem_ofFn {size : Nat} {f : Nat → Cell} {c : Nat × Cell} :
    c ∈ Memory.ofFn size f ↔ c.1 < size ∧ c.2 = f c.1 ∧ c.2 ≠ Memory.unlisted := by
  obtain ⟨a, v⟩ := c
  simp only [Memory.ofFn, List.mem_filter, List.mem_map, List.mem_range, bne_iff_ne, Prod.mk.injEq]
  constructor
  · rintro ⟨⟨_, ha, rfl, rfl⟩, hne⟩
    exact ⟨ha, rfl, hne⟩
  · rintro ⟨ha, rfl, hne⟩
    exact ⟨⟨a, ha, rfl, rfl⟩, hne⟩

/-- The initial memory reads as the function it is made from. -/
theorem Memory.read_ofFn {size a : Nat} (f : Nat → Cell) (ha : a < size) : (Memory.ofFn size f).read a = f a := by
  by_cases hf : f a = Memory.unlisted
  · rw [hf]
    refine Memory.read_of_not_mem _ _ ?_
    rintro c hc rfl
    obtain ⟨-, hval, hne⟩ := Memory.mem_ofFn.1 hc
    exact hne (hval.trans hf)
  · exact Memory.read_of_mem (Memory.ofFn_wf size f).1 (c := (a, f a)) (Memory.mem_ofFn.2 ⟨ha, rfl, hf⟩)

/-- An accepted launch: its `MEM_INIT` values are cells, and data memory is made from them. -/
theorem launchState_eq_next {size : Nat} {init : Nat → Int} {s : State} (h : launchState size init = .next s) :
    (∀ a, a < size → InCell (init a)) ∧
      s = { State.reset with memSize := size, dmem := Memory.ofFn size (fun a => BitVec.ofInt 64 (init a)) } := by
  unfold launchState at h
  split_ifs at h with hzero hcell
  cases h
  exact ⟨fun a ha => hcell a (List.mem_range.2 ha), rfl⟩

/-- A cell of a launched machine holds its `MEM_INIT` value exactly (70_reset_and_hazards.md R190). -/
theorem toInt_read_of_launchState {size : Nat} {init : Nat → Int} {s : State} (h : launchState size init = .next s)
    {a : Nat} (ha : a < size) : (s.dmem.read a).toInt = init a := by
  obtain ⟨hcell, rfl⟩ := launchState_eq_next h
  obtain ⟨hlow, hhigh⟩ := hcell a ha
  rw [Memory.read_ofFn _ ha]
  exact BitVec.toInt_ofInt_eq_self (by decide) hlow hhigh

/-! ### One rule per instruction -/

/-- The 33-bit operand is exact as a 64-bit cell. -/
theorem toInt_immediate (b : Operand) : (immediate b).toInt = (b.toNat : Int) := by
  have hb := b.isLt
  have hnat : (immediate b).toNat = b.toNat := BitVec.toNat_setWidth_of_le (by decide)
  rw [BitVec.toInt_eq_toNat_of_lt (by omega), hnat]

theorem exec_readValue_of_lt {b : Operand} {s : State} (h : b.toNat < s.memSize) :
    exec (.readValue b) s = .next { s with acc := s.dmem.read b.toNat } :=
  exec_of_inside (decide_eq_false (Nat.not_le.2 h))

theorem exec_writeValue_of_lt {b : Operand} {s : State} (h : b.toNat < s.memSize) :
    exec (.writeValue b) s = .next { s with dmem := s.dmem.write b.toNat s.acc } :=
  exec_of_inside (decide_eq_false (Nat.not_le.2 h))

theorem exec_less_of_lt {b : Operand} {s : State} (h : b.toNat < s.memSize) :
    exec (.less b) s = .next { s with dmem := s.dmem.write b.toNat (lessThan (s.dmem.read b.toNat) s.acc) } :=
  exec_of_inside (decide_eq_false (Nat.not_le.2 h))

/-- The address error written out: `STATUS` and the log alone change (60_exceptions.md R164). -/
theorem exec_of_outside_eq {i : Instr} {s : State} (h : outsideMemory s.memSize i = true) :
    exec i s = .next { s with
      status := { state := .haltedError, cause := .memoryAccessError, faultPc := s.pc, faultInfo := i.operand }
      log := s.log ++ [.error s.pc .memoryAccessError i.operand, s.summary] } := by
  rw [exec_of_outside h, haltMemory, haltError_eq]

/-! ### The obligations -/

/-- Settles O11: `load_const` writes `ACC` alone, and 33 bits fit in a cell without a sign. -/
theorem loadConstLoadsOperand : Obligations.LoadConstLoadsOperand :=
  ⟨fun _ => decodeWord_of_opcode (m := .loadConst), fun b _ => ⟨immediate b, toInt_immediate b, rfl⟩,
    .loadConst 381, rfl, fun _ => rfl⟩

/-- Settles O12: inside memory the cell is loaded, which after a launch is the `MEM_INIT` value; outside it is the halt. -/
theorem readValueLoadsCell : Obligations.ReadValueLoadsCell := by
  refine ⟨fun _ => decodeWord_of_opcode (m := .readValue), fun _ _ => exec_readValue_of_lt,
    fun _ _ hout => exec_of_outside_eq (decide_eq_true hout), fun size init s b hlaunch hb => ?launched,
    .readValue 10, rfl, fun s hlt hread => ?worked⟩
  case launched =>
    have hsize : s.memSize = size := by rw [(launchState_eq_next hlaunch).2]
    exact ⟨_, toInt_read_of_launchState hlaunch hb, exec_readValue_of_lt (hsize.symm ▸ hb)⟩
  case worked =>
    rw [exec_readValue_of_lt (b := 10) hlt, ← hread]
    rfl

/-- Settles O13: inside memory the new memory is `Memory.write`, whose reads are `Memory.read_write`'s; writing back a
cell's own value is `Memory.write_read_self`. -/
theorem writeValueStoresAccumulator : Obligations.WriteValueStoresAccumulator := by
  refine ⟨fun _ => decodeWord_of_opcode (m := .writeValue), fun b s hb => ?stored,
    fun _ _ hout => exec_of_outside_eq (decide_eq_true hout), fun b s hb hwf hown => ?own,
    fun b s t v hb ht => ?later, .writeValue 0, rfl, fun s hlt hacc => ?worked⟩
  case stored =>
    exact ⟨_, exec_writeValue_of_lt hb, by simp [Memory.read_write], fun a ha => by simp [Memory.read_write, ha]⟩
  case own =>
    have hkept : s.dmem.write b.toNat s.acc = s.dmem := by rw [← hown, Memory.write_read_self hwf]
    rw [exec_writeValue_of_lt hb, hkept]
  case later =>
    obtain ⟨htb, hstored⟩ : b.toNat < t.memSize ∧ t.dmem.read b.toNat = s.acc := by
      rw [exec_writeValue_of_lt hb] at ht
      cases ht
      exact ⟨hb, by simp [Memory.read_write]⟩
    refine ⟨?_, _, exec_less_of_lt (s := { t with acc := v }) htb, ?_⟩
    · rw [exec_readValue_of_lt (s := { t with acc := v }) htb, hstored]
    · rw [Memory.read_write, if_pos rfl, hstored, lessThan]
  case worked => exact ⟨_, exec_writeValue_of_lt hlt, by simp [Memory.read_write, hacc]⟩

end Sys2Proof.Machine
end

section
/-! PROOFS. The comparison instruction (42_compare.md): the 0/1 result of a comparison, the cell that `less` leaves, and
the obligation of the family. -/

namespace Sys2Proof.Machine

/-! ### The result of a comparison -/

theorem lessThan_of_lt {x y : Cell} (h : x.toInt < y.toInt) : lessThan x y = 1 := if_pos h

theorem lessThan_of_ge {x y : Cell} (h : y.toInt ≤ x.toInt) : lessThan x y = 0 := if_neg (not_lt.2 h)

/-- Read as a signed integer, the result of a comparison is 0 or 1. -/
theorem toInt_lessThan_bounds (x y : Cell) : 0 ≤ (lessThan x y).toInt ∧ (lessThan x y).toInt ≤ 1 := by
  obtain hlt | hge := lt_or_ge x.toInt y.toInt
  · rw [lessThan_of_lt hlt]
    decide
  · rw [lessThan_of_ge hge]
    decide

/-! ### The cell that `less` leaves -/

/-- Inside memory `less` keeps `MEM_SIZE` and `ACC`, and its cell holds the comparison of its old value with `ACC`. -/
theorem exec_less_eq_next {b : Operand} {s t : State} (hb : b.toNat < s.memSize) (h : exec (.less b) s = .next t) :
    t.memSize = s.memSize ∧ t.acc = s.acc ∧ t.dmem.read b.toNat = lessThan (s.dmem.read b.toNat) s.acc := by
  rw [exec_less_of_lt hb] at h
  cases h
  exact ⟨rfl, rfl, by rw [Memory.read_write, if_pos rfl]⟩

/-! ### The obligation -/

/-- Settles O14: inside memory the new memory is `Memory.write`, whose reads are `Memory.read_write`'s; a second `less`
compares the 0 or 1 of the first (R151), so `ACC > 1` leaves 1 and `ACC <= 0` leaves 0. -/
theorem lessComparesCellWithAccumulator : Obligations.LessComparesCellWithAccumulator := by
  refine ⟨fun _ => decodeWord_of_opcode (m := .less), fun b s hb => ?compared,
    fun _ _ hout => exec_of_outside_eq (decide_eq_true hout), fun b s t u hb ht hu => ?twice,
    .less 0, rfl, fun s hlt hread hacc => ?worked⟩
  case compared =>
    exact ⟨_, exec_less_of_lt hb, by rw [Memory.read_write, if_pos rfl, lessThan],
      fun a ha => by rw [Memory.read_write, if_neg ha]⟩
  case twice =>
    obtain ⟨hsize, hacc, hfirst⟩ := exec_less_eq_next hb ht
    obtain ⟨-, -, hsecond⟩ := exec_less_eq_next (hsize.symm ▸ hb) hu
    obtain ⟨hlow, hhigh⟩ := toInt_lessThan_bounds (s.dmem.read b.toNat) s.acc
    rw [hfirst, hacc] at hsecond
    rw [hsecond]
    exact ⟨fun hgt => lessThan_of_lt (hhigh.trans_lt hgt), fun hle => lessThan_of_ge (hle.trans hlow)⟩
  case worked =>
    have hge : s.acc.toInt ≤ (s.dmem.read 0).toInt := by
      rw [hread, hacc]
      decide
    exact ⟨_, exec_less_of_lt hlt, (Memory.read_write _ _ _ _).trans (lessThan_of_ge hge)⟩

end Sys2Proof.Machine
end

section
/-! PROOFS. Run-time errors and the empty source (60_exceptions.md): the two halts a step can end in, which error a fetched
word raises, lines of blanks and comments, and the five obligations of the family. -/

namespace Sys2Proof.Machine

/-! ### A step that ends in an error -/

/-- A step that ends in an error is the decoding halt, or the memory halt after the `Exec` entry. -/
theorem step_eq_halt {s t : State} (h : step s = .next t) (herr : t.status.state = .haltedError) :
    (∃ a, t = haltDecoding a s) ∨ (∃ i : Instr, t = haltMemory ⟨i.operand⟩ (traceExec i s)) := by
  obtain ⟨hrun, ⟨-, rfl⟩ | ⟨w, -, rfl⟩⟩ := step_eq_next h
  · simp at herr
  · obtain hdecoding | hmemory | ⟨i, hinside⟩ := s.afterWord_cases w
    · exact .inl hdecoding
    · exact .inr hmemory
    · simp [hinside, hrun] at herr

/-! ### Which error a fetched word raises -/

/-- The cause and the recorded value of the error that `w` raises in a memory of `size` cells, if it raises one
(60_exceptions.md R161 to R163). -/
def wordError (size : Nat) (w : Word) : Option (Cause × BitVec 33) :=
  match decodeWord w with
  | .error a => some (.decodingError, a.setWidth 33)
  | .ok i => if outsideMemory size i then some (.memoryAccessError, i.operand) else none

theorem State.afterWord_status_of_no_error {s : State} {w : Word} (h : wordError s.memSize w = none) :
    (s.afterWord w).status = s.status := by
  cases hw : decodeWord w with
  | error a => simp [wordError, hw] at h
  | ok i =>
    have hin : outsideMemory s.memSize i = false := by simpa [wordError, hw] using h
    rw [afterWord_of_inside hw hin]

theorem State.afterWord_status_of_error {s : State} {w : Word} {cause : Cause} {info : BitVec 33}
    (h : wordError s.memSize w = some (cause, info)) :
    (s.afterWord w).status = { state := .haltedError, cause := cause, faultPc := s.pc, faultInfo := info } := by
  cases hw : decodeWord w with
  | error a =>
    obtain ⟨rfl, rfl⟩ : Cause.decodingError = cause ∧ a.setWidth 33 = info := by simpa [wordError, hw] using h
    rw [afterWord_of_illegal hw, haltDecoding, haltError_status]
  | ok i =>
    obtain ⟨hout, rfl, rfl⟩ : outsideMemory s.memSize i = true ∧ Cause.memoryAccessError = cause ∧ i.operand = info := by
      simpa [wordError, hw] using h
    rw [afterWord_of_outside hw hout, haltMemory, haltError_status, traceExec_pc]

/-! ### An ended run -/

theorem step_of_ended {s : State} (h : s.status.state ≠ .running) : step s = .fault .runEnded := by
  simp [step, State.isRunning, h]

theorem State.Fresh.running {s : State} (h : s.Fresh) : s.status.state = .running := by
  obtain ⟨-, -, -, hstatus, -⟩ := h
  rw [hstatus]
  rfl

/-! ### Lines of white space and comments -/

/-- The line is blank once its comment is stripped (30_encoding.md R86). -/
abbrev BlankLine (line : Text) : Prop := strip (dropComment line) = []

theorem splitLines_ne_nil (t : Text) : splitLines t ≠ [] := by
  cases t with
  | nil => simp [splitLines]
  | cons c t =>
    unfold splitLines
    split
    · simp
    · split <;> simp

@[simp] theorem splitLines_newline_cons (t : Text) : splitLines ('\n' :: t) = [] :: splitLines t := by
  simp [splitLines]

theorem splitLines_cons {c : Char} {t l : Text} {ls : List Text} (hc : c ≠ '\n') (h : splitLines t = l :: ls) :
    splitLines (c :: t) = (c :: l) :: ls := by
  simp [splitLines, hc, h]

/-- Where two texts meet, the last line of the first and the first line of the second become one line. -/
theorem splitLines_append (a b : Text) : ∃ before l r after,
    splitLines a = before ++ [l] ∧ splitLines b = r :: after ∧ splitLines (a ++ b) = before ++ (l ++ r) :: after := by
  induction a with
  | nil =>
    obtain ⟨r, after, hb⟩ := List.exists_cons_of_ne_nil (splitLines_ne_nil b)
    exact ⟨[], [], r, after, rfl, hb, hb⟩
  | cons c a ih =>
    obtain ⟨before, l, r, after, ha, hb, hab⟩ := ih
    by_cases hc : c = '\n'
    · subst hc
      exact ⟨[] :: before, l, r, after, by simp [ha], hb, by simp [hab]⟩
    · cases before with
      | nil => exact ⟨[], c :: l, r, after, splitLines_cons hc ha, hb, splitLines_cons hc hab⟩
      | cons x before => exact ⟨(c :: x) :: before, l, r, after, splitLines_cons hc ha, hb, splitLines_cons hc hab⟩

/-- The lines of white space are white space. -/
theorem AllSpace.of_mem_splitLines {t l : Text} (h : AllSpace t) (hl : l ∈ splitLines t) : AllSpace l := by
  induction t generalizing l with
  | nil =>
    obtain rfl : l = [] := by simpa [splitLines] using hl
    exact h
  | cons c t ih =>
    have ht : ∀ {k}, k ∈ splitLines t → AllSpace k := ih fun d hd => h d (List.mem_cons_of_mem c hd)
    by_cases hc : c = '\n'
    · subst hc
      rcases List.mem_cons.1 (splitLines_newline_cons t ▸ hl) with rfl | hl
      · exact fun d hd => absurd hd List.not_mem_nil
      · exact ht hl
    · obtain ⟨k, ks, hk⟩ := List.exists_cons_of_ne_nil (splitLines_ne_nil t)
      rw [splitLines_cons hc hk] at hl
      rw [hk] at ht
      rcases List.mem_cons.1 hl with rfl | hl
      · exact List.forall_mem_cons.2 ⟨h c List.mem_cons_self, ht List.mem_cons_self⟩
      · exact ht (List.mem_cons_of_mem k hl)

/-- Without the white space before it, a text of blank lines is still one of blank lines. -/
theorem blankLines_of_space_append {w t : Text} (hw : AllSpace w) (h : ∀ l ∈ splitLines (w ++ t), BlankLine l) :
    ∀ l ∈ splitLines t, BlankLine l := by
  obtain ⟨before, l, r, after, hsplitw, hsplit, happ⟩ := splitLines_append w t
  have hl : AllSpace l := hw.of_mem_splitLines (by simp [hsplitw])
  rw [happ, List.forall_mem_append, List.forall_mem_cons] at h
  obtain ⟨-, hjoined, hafter⟩ := h
  rw [hsplit, List.forall_mem_cons]
  exact ⟨(strip_dropComment_space_append l r hl).symm.trans hjoined, hafter⟩

/-- Without the white space after it, a text of blank lines is still one of blank lines. -/
theorem blankLines_of_append_space {t w : Text} (hw : AllSpace w) (h : ∀ l ∈ splitLines (t ++ w), BlankLine l) :
    ∀ l ∈ splitLines t, BlankLine l := by
  obtain ⟨before, l, r, after, hsplit, hsplitw, happ⟩ := splitLines_append t w
  have hr : AllSpace r := hw.of_mem_splitLines (by simp [hsplitw])
  rw [happ, List.forall_mem_append, List.forall_mem_cons] at h
  obtain ⟨hbefore, hjoined, -⟩ := h
  rw [hsplit, List.forall_mem_append, List.forall_mem_singleton]
  exact ⟨hbefore, (strip_dropComment_append_space l r hr).symm.trans hjoined⟩

/-- A source of blank lines, once stripped, is still one of blank lines. -/
theorem blankLines_strip {source : Text} (h : ∀ l ∈ splitLines source, BlankLine l) :
    ∀ l ∈ splitLines (strip source), BlankLine l := by
  obtain ⟨w₁, w₂, hw₁, hw₂, hsource⟩ := strip_decompose source
  rw [hsource, List.append_assoc] at h
  exact blankLines_of_append_space hw₂ (blankLines_of_space_append hw₁ h)

/-- Blank lines have no IR. -/
theorem parseLines_of_blankLines {lines : List Text} (h : ∀ l ∈ lines, BlankLine l) : parseLines lines = .ok [] := by
  induction lines with
  | nil => rfl
  | cons l rest ih =>
    obtain ⟨hl, hrest⟩ := List.forall_mem_cons.1 h
    have hparse : parseLine l = .ok none := by simp [parseLine, hl]
    simp [parseLines, hparse, ih hrest]

/-! ### The obligations -/

/-- Settles O28: the two halts a step can end in are `haltError`, which writes `STATUS` and the log. -/
theorem haltIsPrecise : Obligations.HaltIsPrecise := by
  refine ⟨haltError_eq, fun s t h herr => ?_⟩
  obtain ⟨a, rfl⟩ | ⟨i, rfl⟩ := step_eq_halt h herr <;> exact ⟨rfl, rfl, rfl, rfl, rfl⟩

/-- Settles O51: each halt a step can end in gives the cause and the entries before `Error`. -/
theorem everyErrorTakesTheOneHalt : Obligations.EveryErrorTakesTheOneHalt := by
  intro s t h herr
  refine ⟨?halt, step_of_ended (by simp [herr])⟩
  obtain ⟨a, rfl⟩ | ⟨i, rfl⟩ := step_eq_halt h herr
  · refine ⟨.decodingError, a.setWidth 33, [], .inl ⟨rfl, rfl⟩, ?_⟩
    rw [haltDecoding, haltError_eq, List.append_nil]
  · refine ⟨.memoryAccessError, i.operand, _, .inr ⟨rfl, i, rfl⟩, ?_⟩
    rw [haltMemory_traceExec_eq, List.append_assoc, List.singleton_append]

/-- Settles O52: `wordError` gives the error of both steps from the word and `MEM_SIZE`. -/
theorem errorsDependOnWordAndMemorySize : Obligations.ErrorsDependOnWordAndMemorySize := by
  intro s u w hs hu hsize
  refine ⟨_, _, step_of_fetches hs, step_of_fetches hu, ?_⟩
  cases herr : wordError s.memSize w with
  | none =>
    rw [State.afterWord_status_of_no_error herr, State.afterWord_status_of_no_error (hsize ▸ herr), hs.1, hu.1]
    exact ⟨rfl, by simp⟩
  | some e =>
    obtain ⟨cause, info⟩ := e
    rw [State.afterWord_status_of_error herr, State.afterWord_status_of_error (hsize ▸ herr)]
    exact ⟨rfl, fun _ => ⟨rfl, rfl⟩⟩

/-- Settles O29: `step` and a run test `STATE` first, and a fresh state is `RUNNING`. -/
theorem endedRunIsFinal : Obligations.EndedRunIsFinal := by
  intro s hend
  exact ⟨step_of_ended hend, runFrom_of_ended hend, fun _ => if_neg fun hfresh => hend hfresh.running⟩

/-- Settles O49: a source strips to nothing exactly when it is white space; else the white space stripped off its ends
leaves its lines blank, and blank lines have no IR to lower. -/
theorem emptySourceIsAWarning : Obligations.EmptySourceIsAWarning := by
  refine ⟨fun source hspace => ?warned, fun source hnot hblank => ?silent⟩
  case warned =>
    have hnil : strip source = [] := (strip_eq_nil_iff source).2 (List.all_eq_true.1 hspace)
    simp [assemble, hnil]
  case silent =>
    have hne : strip source ≠ [] := fun hnil =>
      Bool.eq_false_iff.1 hnot (List.all_eq_true.2 ((strip_eq_nil_iff source).1 hnil))
    simp [assemble, hne, parseLines_of_blankLines (blankLines_strip hblank), lower]

end Sys2Proof.Machine
end

section
/-! PROOFS. The launch and the empty program (70_reset_and_hazards.md R190, R195): the state a run starts from, the run
of a bytecode too short for one word, and the two obligations of the family. -/

namespace Sys2Proof.Machine

/-- Fewer than five bytes hold no whole word (10_state.md R27). -/
theorem instrCount_of_length_lt {bytes : List Byte} (h : bytes.length < 5) : instrCount bytes = 0 :=
  Nat.div_eq_of_lt h

/-- On a fresh state, the first step of a bytecode without a whole word is the normal end. -/
theorem step_loadBytecode_of_instrCount_zero {s : State} {bytes : List Byte} (hfresh : s.Fresh)
    (hzero : instrCount bytes = 0) : step (s.loadBytecode bytes) = .next (haltNormal (s.loadBytecode bytes)) :=
  step_of_end (s := s.loadBytecode bytes) hfresh.running (hzero.trans_le (Nat.zero_le _))

/-- Settles O38: an accepted launch is the reset state but for `MEM_SIZE` and the cells, which hold their `MEM_INIT`
values by `toInt_read_of_launchState`; loading writes `IMEM` and `N` alone. -/
theorem launchStateValues : Obligations.LaunchStateValues := by
  intro size init s bytes hlaunch
  have hcells : ∀ a, a < size → ((s.loadBytecode bytes).dmem.read a).toInt = init a :=
    fun _ => toInt_read_of_launchState hlaunch
  obtain ⟨-, rfl⟩ := launchState_eq_next hlaunch
  exact ⟨rfl, rfl, rfl, hcells, rfl, rfl, rfl, rfl, rfl⟩

/-- Settles O40: `N` is 0, so the first step and the whole run are the normal end, which writes `STATE` and appends the
`Summary` entry to the empty log. -/
theorem emptyProgramEndsAtOnce : Obligations.EmptyProgramEndsAtOnce := by
  intro bytes s hlen hfresh
  have hzero : instrCount bytes = 0 := instrCount_of_length_lt hlen
  have hstep := step_loadBytecode_of_instrCount_zero hfresh hzero
  have hrun := execute_of_instrCount_zero hfresh hzero
  obtain ⟨hpc, hacc, -, -, hlog, -⟩ := hfresh
  have hsummary : (haltNormal (s.loadBytecode bytes)).log = [(haltNormal (s.loadBytecode bytes)).summary] :=
    congrArg (· ++ [s.summary]) hlog
  exact ⟨_, hstep, hrun, rfl, hpc, hacc, rfl, hsummary⟩

end Sys2Proof.Machine
end

section
/-! PROOFS. Instructions as bytes at the full 33-bit operand (30_encoding.md sections 1 to 4): decoding and encoding are
inverse to each other, and a program's words lie one behind the other, with the obligations on them. -/

namespace Sys2Proof.Machine

open Sys2Proof.Laws

/-! ### Decoding one instruction -/

/-- The opcode table read backwards: only a name's own opcode selects it. -/
theorem opcode_of_opcodeName {a : OpField} {m : Mnemonic} (h : opcodeName a = some m) : m.opcode = a := by
  unfold opcodeName at h
  split_ifs at h with h14 h11 h94 h69 <;> cases h <;> symm <;> assumption

theorem instr_mnemonic_operand (m : Mnemonic) (b : Operand) : (m.instr b).mnemonic = m ∧ (m.instr b).operand = b := by
  cases m <;> exact ⟨rfl, rfl⟩

/-- Where decoding a word fails, the error is its opcode field, which names nothing. -/
theorem decodeWord_eq_error {w : Word} {a : OpField} (h : decodeWord w = .error a) : opcodeName a = none := by
  cases hname : opcodeName (splitWord w).1 with
  | some m => simp [decodeWord, hname] at h
  | none =>
    rw [decodeWord_of_opcodeName_eq_none hname] at h
    cases h
    exact hname

/-- A word decodes to `i` exactly when it is the word of `i`. -/
theorem decodeWord_eq_ok_iff {w : Word} {i : Instr} : decodeWord w = .ok i ↔ w = encodeWord i := by
  constructor
  · intro h
    cases hname : opcodeName (splitWord w).1 with
    | none => simp [decodeWord, hname] at h
    | some m =>
      have hop := opcode_of_opcodeName hname
      rw [decodeWord_of_opcode hop.symm] at h
      cases h
      obtain ⟨hm, hb⟩ := instr_mnemonic_operand m (splitWord w).2
      rw [encodeWord, Instr.opcode, hm, hb, hop, joinWord_splitWord]
  · rintro rfl
    have hsplit : splitWord (encodeWord i) = (i.mnemonic.opcode, i.operand) := splitWord_joinWord _ _
    rw [decodeWord_of_opcode (congrArg Prod.fst hsplit), hsplit, mnemonic_instr_operand]

/-- Bytes decode to `i` exactly when they are the bytes of `i`. -/
theorem decode_eq_ok_iff {bytes : List Byte} {i : Instr} : decode bytes = .ok i ↔ bytes = encode i := by
  constructor
  · intro h
    by_cases hlen : bytes.length = 5
    · obtain ⟨b0, b1, b2, b3, b4, rfl⟩ : ∃ b0 b1 b2 b3 b4, [b0, b1, b2, b3, b4] = bytes := by
        simpa [List.length_eq_succ_iff] using hlen
      rw [decode_five] at h
      cases hw : decodeWord (leWord b0 b1 b2 b3 b4) with
      | error a => simp [hw, Except.mapError] at h
      | ok j =>
        obtain rfl : j = i := by simpa [hw, Except.mapError] using h
        rw [encode, ← decodeWord_eq_ok_iff.1 hw, wordBytes_leWord]
    · rw [decode_of_length_ne hlen] at h
      cases h
  · rintro rfl
    rw [encode, decode_wordBytes, decodeWord_eq_ok_iff.2 rfl]
    rfl

/-! ### The words of a program -/

@[simp] theorem encodeProgram_nil : encodeProgram [] = [] := rfl

@[simp] theorem encodeProgram_cons (i : Instr) (p : List Instr) :
    encodeProgram (i :: p) = encode i ++ encodeProgram p := rfl

theorem length_encodeProgram (p : List Instr) : (encodeProgram p).length = 5 * p.length := by
  induction p with
  | nil => rfl
  | cons i p ih =>
    have hlen : (encode i).length = 5 := rfl
    rw [encodeProgram_cons, List.length_append, hlen, ih, List.length_cons]
    omega

/-- Where the bytes from `5*pc` on begin with an instruction's bytes, the fetch gives its word. -/
theorem ifetch_of_drop_encode {imem rest : List Byte} {pc : Nat} {i : Instr}
    (h : imem.drop (5 * pc) = encode i ++ rest) : ifetch imem pc = some (encodeWord i) := by
  rw [ifetch_of_drop h, leWord_wordByte]

/-- Behind the first `k` instructions, the bytecode goes on with instruction `k`. -/
theorem drop_encodeProgram {p : List Instr} {k : Nat} (h : k < p.length) :
    (encodeProgram p).drop (5 * k) = encode p[k] ++ encodeProgram (p.drop (k + 1)) := by
  induction p generalizing k with
  | nil => cases h
  | cons i p ih =>
    cases k with
    | zero => rfl
    | succ k => exact ih (k := k) (Nat.lt_of_succ_lt_succ h)

/-! ### The obligations -/

/-- Settles O8: bytes decode to an instruction exactly when they are its encoding; the encoder port is
`encodePort_opcode`'s. -/
theorem everyInstructionDecodesBack : Obligations.EveryInstructionDecodesBack := by
  refine fun i => ⟨decode_eq_ok_iff.2 rfl, fun _ => decode_eq_ok_iff.1, fun hwf => ?_⟩
  have henc := encodePort_opcode i.mnemonic hwf
  rwa [BitVec.ofNat_toNat, BitVec.setWidth_eq, mnemonic_instr_operand] at henc

/-- Settles O9: the bytes from `5*k` on begin with those of instruction `k`, whose word decodes to it alone. -/
theorem programWordsAreFetchedInOrder : Obligations.ProgramWordsAreFetchedInOrder := by
  refine fun p tail => ⟨length_encodeProgram p, fun k hk => ⟨?_, decodeWord_eq_ok_iff.2 rfl⟩⟩
  have hle : 5 * k ≤ (encodeProgram p).length := by rw [length_encodeProgram]; omega
  apply ifetch_of_drop_encode (rest := encodeProgram (p.drop (k + 1)) ++ tail)
  rw [List.drop_append_of_le_length hle, drop_encodeProgram hk, List.append_assoc]

/-- Settles O10: the ten vectors are closed terms, which the decoder evaluates. -/
theorem writtenOutWordsDecode : Obligations.WrittenOutWordsDecode := by
  unfold Obligations.WrittenOutWordsDecode
  decide

end Sys2Proof.Machine
end

section
/-! PROOFS. What one instruction changes and what it leaves (41_data_transfer.md, 42_compare.md): its effect on the
integers a state holds, its frame, and the obligations on them. -/

namespace Sys2Proof.Machine

/-! ### Data memory after an instruction -/

/-- An instruction writes no cell but the one at its operand's address. -/
theorem read_dmemAfter_of_ne {i : Instr} {a : Nat} (h : a ≠ cellAddress i.operand) (acc : Cell) (m : Memory) :
    (dmemAfter i acc m).read a = m.read a := by
  cases i with
  | loadConst b => rfl
  | readValue b => rfl
  | writeValue b => exact (Memory.read_write ..).trans (if_neg h)
  | less b => exact (Memory.read_write ..).trans (if_neg h)

theorem dmemAfter_wf {m : Memory} (h : m.wf) (i : Instr) (acc : Cell) : (dmemAfter i acc m).wf := by
  cases i with
  | loadConst b => exact h
  | readValue b => exact h
  | writeValue b => exact Memory.write_wf h _ _
  | less b => exact Memory.write_wf h _ _

theorem outsideMemory_eq_true {size : Nat} {i : Instr} (h : outsideMemory size i = true) : size ≤ i.operand.toNat := by
  cases i with
  | loadConst b => cases h
  | readValue b => exact of_decide_eq_true h
  | writeValue b => exact of_decide_eq_true h
  | less b => exact of_decide_eq_true h

/-- An instruction inside memory lists no cell that does not exist. -/
theorem dmemAfter_bounded {m : Memory} {size : Nat} {i : Instr} (h : m.Bounded size)
    (hin : outsideMemory size i = false) (acc : Cell) : (dmemAfter i acc m).Bounded size := by
  cases i with
  | loadConst b => exact h
  | readValue b => exact h
  | writeValue b => exact Memory.write_bounded h (Nat.not_le.1 (of_decide_eq_false hin)) _
  | less b => exact Memory.write_bounded h (Nat.not_le.1 (of_decide_eq_false hin)) _

/-! ### The integers after an instruction -/

/-- A comparison's cell is the source's 1 or 0. -/
theorem toInt_lessThan (x y : Cell) : (lessThan x y).toInt = if x.toInt < y.toInt then 1 else 0 := by
  unfold lessThan
  split <;> rfl

/-- The integers after a write: one cell replaced. -/
theorem State.values_write (s : State) (a : Nat) (v : Cell) :
    State.values { s with dmem := s.dmem.write a v } = s.values.set a v.toInt := by
  simp only [State.values, Values.set, Values.mk.injEq, true_and]
  funext b
  rw [Memory.read_write, apply_ite BitVec.toInt]

/-- On the integers a state holds, an instruction does what the source's sentences say (92_eei_decisions.md D1). -/
theorem State.values_after (s : State) (i : Instr) :
    State.values { s with acc := accAfter i s.acc s.dmem, dmem := dmemAfter i s.acc s.dmem } = s.values.after i := by
  cases i with
  | loadConst b => exact congrArg (Values.mk · s.values.cell) (toInt_immediate b)
  | readValue b => rfl
  | writeValue b => exact s.values_write _ _
  | less b => exact (s.values_write _ _).trans (congrArg _ (toInt_lessThan _ _))

/-! ### The obligations -/

/-- Settles O15: outside memory only `STATUS` and the log change, and inside it the new memory is the old one. -/
theorem registerFormsFrame : Obligations.RegisterFormsFrame := by
  intro i b s t hi h
  cases hmem : outsideMemory s.memSize i with
  | true =>
    rw [exec_of_outside_eq hmem] at h
    cases h
    exact ⟨rfl, rfl, rfl, rfl, rfl, fun _ => rfl, by simp, fun _ => rfl⟩
  | false =>
    rw [exec_of_inside hmem] at h
    cases h
    have hkept : dmemAfter i s.acc s.dmem = s.dmem := by obtain rfl | rfl := hi <;> rfl
    exact ⟨rfl, rfl, rfl, rfl, rfl, fun _ => by rw [hkept], fun _ => ⟨rfl, rfl⟩, by simp⟩

/-- Settles O16: outside memory only `STATUS` and the log change; inside it `ACC` stays and the operand's cell alone is
written, by `read_dmemAfter_of_ne`. -/
theorem storingFormsFrame : Obligations.StoringFormsFrame := by
  intro i b s t hi h
  cases hmem : outsideMemory s.memSize i with
  | true =>
    rw [exec_of_outside_eq hmem] at h
    cases h
    exact ⟨rfl, rfl, rfl, rfl, rfl, rfl, fun _ _ => rfl, by simp, fun _ _ => rfl⟩
  | false =>
    rw [exec_of_inside hmem] at h
    cases h
    obtain ⟨hacc, hoperand⟩ : accAfter i s.acc s.dmem = s.acc ∧ i.operand = b := by
      obtain rfl | rfl := hi <;> exact ⟨rfl, rfl⟩
    exact ⟨rfl, rfl, rfl, rfl, rfl, hacc, fun a ha => read_dmemAfter_of_ne (hoperand ▸ ha) _ _, fun _ => ⟨rfl, rfl⟩,
      by simp⟩

/-- Settles O17: inside memory `exec` is `exec_of_inside`'s state, whose integers are `State.values_after`'s. -/
theorem cellsAgreeWithUnboundedIntegers : Obligations.CellsAgreeWithUnboundedIntegers := by
  intro i s hin
  have hvalues := s.values_after i
  exact ⟨_, exec_of_inside hin, congrArg Values.acc hvalues, congrFun (congrArg Values.cell hvalues)⟩

/-- Settles O19: a canonical memory lists exactly the cells that differ from an unlisted one, in order. -/
theorem canonicalMemoryIsItsCells : Obligations.CanonicalMemoryIsItsCells :=
  fun _ _ => Memory.eq_of_read_eq

end Sys2Proof.Machine
end

section
/-! PROOFS. What every step does and keeps (10_state.md, 40_execution_loop.md sections 1 and 2): the four ways a step can
go, the run invariant, the log's shape, the range of the values, the log's lack of effect, and the obligations on them. -/

namespace Sys2Proof.Machine

/-! ### The ways a step can go -/

/-- The state after a step that completes `i` (40_execution_loop.md R115, R116, R118). -/
def State.afterInstr (s : State) (i : Instr) : State :=
  { s with
    acc := accAfter i s.acc s.dmem, dmem := dmemAfter i s.acc s.dmem
    pc := s.pc + 1, log := s.log ++ [.exec s.pc i.mnemonic i.operand s.acc] }

/-- A step is the normal end, the halt on an illegal opcode field, the halt on an address outside memory after the `Exec`
entry, or it completes an instruction inside memory. -/
theorem step_next_cases {s t : State} (h : step s = .next t) :
    s.status.state = .running ∧
    ((s.n ≤ s.pc ∧ t = haltNormal s) ∨
     (s.pc < s.n ∧
       ((∃ a, opcodeName a = none ∧ t = haltDecoding a s) ∨
        (∃ i, outsideMemory s.memSize i = true ∧ t = haltMemory ⟨i.operand⟩ (traceExec i s)) ∨
        (∃ i, outsideMemory s.memSize i = false ∧ t = s.afterInstr i)))) := by
  obtain ⟨hrun, hend | ⟨w, ⟨-, hpc, -⟩, rfl⟩⟩ := step_eq_next h
  · exact ⟨hrun, .inl hend⟩
  · refine ⟨hrun, .inr ⟨hpc, ?_⟩⟩
    cases hw : decodeWord w with
    | error a => exact .inl ⟨a, decodeWord_eq_error hw, State.afterWord_of_illegal hw⟩
    | ok i =>
      cases hmem : outsideMemory s.memSize i with
      | true => exact .inr (.inl ⟨i, hmem, State.afterWord_of_outside hw hmem⟩)
      | false => exact .inr (.inr ⟨i, hmem, State.afterWord_of_inside hw hmem⟩)

/-- Where `IMEM` lacks the word that `N` promises, the step is refused. -/
theorem step_of_no_word {s : State} (hrun : s.status.state = .running) (hpc : s.pc < s.n)
    (hfetch : ifetch s.imem s.pc = none) : step s = .refused .fetchOutsideImem := by
  simp [step, State.isRunning, hrun, Nat.not_le.2 hpc, hfetch]

/-- A step that gives no next state is the fault of an ended run or the refusal of a missing word. -/
theorem step_stops {s : State} (h : ∀ t, step s ≠ .next t) :
    s.status.state ≠ .running ∨ (s.status.state = .running ∧ s.pc < s.n ∧ ifetch s.imem s.pc = none) := by
  by_cases hrun : s.status.state = .running
  · obtain hpc | hpc := Nat.lt_or_ge s.pc s.n
    · cases hfetch : ifetch s.imem s.pc with
      | none => exact .inr ⟨hrun, hpc, rfl⟩
      | some w => exact absurd (step_of_fetches ⟨hrun, hpc, hfetch⟩) (h _)
    · exact absurd (step_of_end hrun hpc) (h _)
  · exact .inl hrun

/-! ### The run invariant -/

theorem State.Inv.haltNormal {s : State} (h : s.Inv) (hrun : s.status.state = .running) (hpc : s.n ≤ s.pc) :
    (haltNormal s).Inv := by
  obtain ⟨hsize, hwf, hbound, hn, hle, hstack, hlegal, -, -⟩ := h
  have hzero : s.status.cause = .none ∧ s.status.faultPc = 0 ∧ s.status.faultInfo = 0 := by
    simpa [Status.Legal, hrun] using hlegal
  exact ⟨hsize, hwf, hbound, hn, hle, hstack, by simpa [Status.Legal] using hzero, fun _ => Nat.le_antisymm hle hpc,
    by simp⟩

/-- The halt keeps the invariant below `N`, where its cause and recorded value fit each other. -/
theorem State.Inv.haltError {s : State} {cause : Cause} {info : BitVec 33} (h : s.Inv) (hpc : s.pc < s.n)
    (hcause : (cause = .decodingError ∧ info.toNat < 2 ^ 7 ∧ opcodeName (info.setWidth 7) = none) ∨
      (cause = .memoryAccessError ∧ s.memSize ≤ info.toNat)) : (haltError cause info s).Inv := by
  obtain ⟨hsize, hwf, hbound, hn, hle, hstack, -, -, -⟩ := h
  exact ⟨hsize, hwf, hbound, hn, hle, hstack, by simpa [Status.Legal] using hcause, by simp, fun _ => hpc⟩

/-- An opcode field survives the zero extension of `FAULT_INFO`. -/
theorem setWidth_opField (a : OpField) : (a.setWidth 33).toNat < 2 ^ 7 ∧ (a.setWidth 33).setWidth 7 = a := by
  have hnat : (a.setWidth 33).toNat = a.toNat := BitVec.toNat_setWidth_of_le (by decide)
  exact ⟨hnat ▸ a.isLt, BitVec.eq_of_toNat_eq (by rw [BitVec.toNat_setWidth, hnat, Nat.mod_eq_of_lt a.isLt])⟩

theorem State.Inv.afterInstr {s : State} {i : Instr} (h : s.Inv) (hrun : s.status.state = .running) (hpc : s.pc < s.n)
    (hin : outsideMemory s.memSize i = false) : (s.afterInstr i).Inv := by
  obtain ⟨hsize, hwf, hbound, hn, -, hstack, hlegal, -, -⟩ := h
  exact ⟨hsize, dmemAfter_wf hwf i _, dmemAfter_bounded hbound hin _, hn, hpc, hstack,
    by simpa [Status.Legal, State.afterInstr, hrun] using hlegal, by simp [State.afterInstr, hrun],
    by simp [State.afterInstr, hrun]⟩

/-- Settles O34: each of the four ways keeps the invariant; `PC` moves on only below `N`. -/
theorem stepKeepsInvariant : Obligations.StepKeepsInvariant := by
  intro s t hinv h
  obtain ⟨hrun, ⟨hge, rfl⟩ | ⟨hlt, ⟨a, hname, rfl⟩ | ⟨i, hout, rfl⟩ | ⟨i, hin, rfl⟩⟩⟩ := step_next_cases h
  · exact hinv.haltNormal hrun hge
  · obtain ⟨hsmall, hback⟩ := setWidth_opField a
    exact hinv.haltError hlt (.inl ⟨rfl, hsmall, hback.symm ▸ hname⟩)
  · exact State.Inv.haltError (s := traceExec i s) hinv hlt (.inr ⟨rfl, outsideMemory_eq_true hout⟩)
  · exact hinv.afterInstr hrun hlt hin

/-! ### The shape of the log -/

theorem logShape_of_running {s : State} (hrun : s.status.state = .running) :
    LogShape s ↔ ExecEntriesInOrder s.log ∧ s.log.length = s.pc := by
  simp only [LogShape, hrun]

/-- An `Exec` entry for the next index continues a log of `Exec` entries. -/
theorem ExecEntriesInOrder.append {l : List TraceEntry} {e : TraceEntry} (h : ExecEntriesInOrder l)
    (he : e.isExecAt l.length = true) : ExecEntriesInOrder (l ++ [e]) := by
  intro k hk
  rw [List.getElem_append]
  split
  · exact h k ‹_›
  · obtain rfl : k = l.length := by
      rw [List.length_append, List.length_singleton] at hk
      omega
    simpa using he

/-- The log with the `Exec` entry of the instruction at `PC`. -/
theorem execEntriesInOrder_traceExec {s : State} (h : ExecEntriesInOrder s.log) (hlen : s.log.length = s.pc) (i : Instr) :
    ExecEntriesInOrder (traceExec i s).log ∧ (traceExec i s).log.length = s.pc + 1 :=
  ⟨h.append (by simp [TraceEntry.isExecAt, hlen]), by simp [hlen]⟩

/-- The halt completes a log of `Exec` entries: one for the faulting instruction too, if its memory access failed. -/
theorem logShape_haltError {s : State} {cause : Cause} {info : BitVec 33} (h : ExecEntriesInOrder s.log)
    (hlen : s.log.length = if cause = .memoryAccessError then s.pc + 1 else s.pc) : LogShape (haltError cause info s) := by
  refine ⟨s.log, ?_, h, hlen⟩
  rw [haltError_eq]
  rfl

/-- Settles O35: an instruction appends the `Exec` entry of its index, and the ends append theirs after the last. -/
theorem stepKeepsLogShape : Obligations.StepKeepsLogShape := by
  intro s t hinv hlog h
  obtain ⟨hrun, hway⟩ := step_next_cases h
  obtain ⟨hexecs, hlen⟩ := (logShape_of_running hrun).1 hlog
  obtain ⟨hge, rfl⟩ | ⟨-, ⟨a, -, rfl⟩ | ⟨i, -, rfl⟩ | ⟨i, -, rfl⟩⟩ := hway
  · obtain ⟨-, -, -, -, hle, -⟩ := hinv
    exact ⟨s.log, rfl, hexecs, hlen.trans (Nat.le_antisymm hle hge)⟩
  · exact logShape_haltError hexecs hlen
  · obtain ⟨hexecs', hlen'⟩ := execEntriesInOrder_traceExec hexecs hlen i
    exact logShape_haltError hexecs' hlen'
  · exact (logShape_of_running (s := s.afterInstr i) hrun).2 (execEntriesInOrder_traceExec hexecs hlen i)

/-! ### The range of the values -/

theorem programMade_immediate (b : Operand) : ProgramMade (immediate b) := by
  have hb := b.isLt
  rw [ProgramMade, toInt_immediate]
  omega

theorem programMade_lessThan (x y : Cell) : ProgramMade (lessThan x y) := by
  obtain ⟨hlow, hhigh⟩ := toInt_lessThan_bounds x y
  exact ⟨hlow, by omega⟩

theorem programMade_read_write {m : Memory} {v : Cell} (hm : ∀ a, ProgramMade (m.read a)) (hv : ProgramMade v)
    (a b : Nat) : ProgramMade ((m.write a v).read b) := by
  rw [Memory.read_write]
  split
  · exact hv
  · exact hm b

theorem State.AllProgramMade.afterInstr {s : State} (h : s.AllProgramMade) (i : Instr) :
    (s.afterInstr i).AllProgramMade := by
  obtain ⟨hacc, hcells⟩ := h
  cases i with
  | loadConst b => exact ⟨programMade_immediate b, hcells⟩
  | readValue b => exact ⟨hcells _, hcells⟩
  | writeValue b => exact ⟨hacc, programMade_read_write hcells hacc _⟩
  | less b => exact ⟨hacc, programMade_read_write hcells (programMade_lessThan _ _) _⟩

/-- Settles O36: only a completed instruction writes a value, and it is an operand, a value held before, or 0 or 1. -/
theorem stepKeepsProgramMadeValues : Obligations.StepKeepsProgramMadeValues := by
  intro s t hmade h
  obtain ⟨-, ⟨-, rfl⟩ | ⟨-, ⟨a, -, rfl⟩ | ⟨i, -, rfl⟩ | ⟨i, -, rfl⟩⟩⟩ := step_next_cases h
  · exact hmade
  · exact hmade
  · exact hmade
  · exact hmade.afterInstr i

/-! ### What no step writes, and what no step reads -/

/-- Settles O30: each of the four ways writes none of the launch's fields and appends at least one entry. -/
theorem nothingElseWritesControlState : Obligations.NothingElseWritesControlState := by
  intro s t h
  obtain ⟨-, ⟨-, rfl⟩ | ⟨-, ⟨a, -, rfl⟩ | ⟨i, -, rfl⟩ | ⟨i, -, rfl⟩⟩⟩ := step_next_cases h
  · exact ⟨rfl, rfl, rfl, rfl, .inl rfl, ⟨_, rfl⟩, by simp⟩
  · exact ⟨rfl, rfl, rfl, rfl, .inl rfl, by simp [haltDecoding], by simp [haltDecoding]⟩
  · exact ⟨rfl, rfl, rfl, rfl, .inl rfl, by simp [haltMemory], by simp [haltMemory]⟩
  · exact ⟨rfl, rfl, rfl, rfl, .inr rfl, ⟨_, rfl⟩, by simp [State.afterInstr]⟩

/-- The state with another log. -/
def State.setLog (s : State) (l : List TraceEntry) : State := { s with log := l }

/-- The entries a halt appends do not depend on the log. -/
theorem haltError_setLog (cause : Cause) (info : BitVec 33) (s : State) (l : List TraceEntry) :
    haltError cause info (s.setLog l)
      = (haltError cause info s).setLog (l ++ [.error s.pc cause info, s.summary]) := by
  rw [haltError_eq, haltError_eq]
  rfl

/-- What a fetched word does, and the entries it appends, do not depend on the log. -/
theorem State.afterWord_setLog (s : State) (w : Word) (l : List TraceEntry) :
    ∃ added, (s.afterWord w).log = s.log ++ added ∧
      (s.setLog l).afterWord w = (s.afterWord w).setLog (l ++ added) := by
  cases hw : decodeWord w with
  | error a =>
    rw [afterWord_of_illegal hw, afterWord_of_illegal hw]
    exact ⟨_, List.append_assoc _ _ _, haltError_setLog _ _ _ _⟩
  | ok i =>
    cases hmem : outsideMemory s.memSize i with
    | true =>
      rw [afterWord_of_outside hw hmem, afterWord_of_outside (s := s.setLog l) hw hmem, haltMemory_traceExec_eq,
        haltMemory_traceExec_eq]
      exact ⟨_, rfl, rfl⟩
    | false =>
      rw [afterWord_of_inside hw hmem, afterWord_of_inside (s := s.setLog l) hw hmem]
      exact ⟨_, rfl, rfl⟩

/-- Settles O31: the log decides neither how a step goes nor what it appends. -/
theorem logHasNoEffect : Obligations.LogHasNoEffect := by
  intro s l
  refine ⟨fun t h => ?next, fun f h => ?fault, fun r h => ?refused⟩
  case next =>
    obtain ⟨hrun, ⟨hpc, rfl⟩ | ⟨w, hs, rfl⟩⟩ := step_eq_next h
    · exact ⟨_, rfl, step_of_end (s := s.setLog l) hrun hpc⟩
    · obtain ⟨added, hlog, hsame⟩ := s.afterWord_setLog w l
      exact ⟨added, hlog, (step_of_fetches (s := s.setLog l) hs).trans (congrArg _ hsame)⟩
  case fault =>
    obtain hend | ⟨hrun, hpc, hfetch⟩ := step_stops (s := s) (by simp [h])
    · rw [← h, step_of_ended hend]
      exact step_of_ended (s := s.setLog l) hend
    · simp [step_of_no_word hrun hpc hfetch] at h
  case refused =>
    obtain hend | ⟨hrun, hpc, hfetch⟩ := step_stops (s := s) (by simp [h])
    · simp [step_of_ended hend] at h
    · rw [← h, step_of_no_word hrun hpc hfetch]
      exact step_of_no_word (s := s.setLog l) hrun hpc hfetch

/-! ### Program counters and the decoded instruction -/

/-- Settles O37: after the step the invariant bounds `PC` by `N`, and `FAULT_PC` is `PC` or 0. -/
theorem programCounterFitsAnyWidth : Obligations.ProgramCounterFitsAnyWidth := by
  intro width s t hinv hwidth h
  obtain ⟨-, -, -, -, hle, -, hlegal, -, -⟩ := stepKeepsInvariant s t hinv h
  obtain ⟨-, hn⟩ := step_keeps_program h
  have hfault : t.status.faultPc ≤ t.n := by
    unfold Status.Legal at hlegal
    split_ifs at hlegal
    · obtain ⟨hpc, -⟩ := hlegal
      exact hpc.trans_le hle
    · obtain ⟨-, hzero, -⟩ := hlegal
      exact hzero.trans_le (Nat.zero_le _)
  rw [← hn] at hwidth
  exact ⟨hle.trans_lt hwidth, hfault.trans_lt hwidth, hwidth⟩

/-- Settles O21: the five bytes are the instruction's own, so the fetch gives its word, which decodes to it. -/
theorem stepRunsDecodedInstruction : Obligations.StepRunsDecodedInstruction := by
  intro s i hrun hpc hdec
  have hbytes := decode_eq_ok_iff.1 hdec
  have hfetch : ifetch s.imem s.pc = some (encodeWord i) := by
    apply ifetch_of_drop_encode (rest := (s.imem.drop (5 * s.pc)).drop 5)
    rw [← hbytes, List.take_append_drop]
  have hdecode : decodeWord (encodeWord i) = .ok i := decodeWord_eq_ok_iff.2 rfl
  have htrace : { s with log := s.log ++ [.exec s.pc i.mnemonic i.operand s.acc] } = traceExec i s := rfl
  rw [htrace]
  simp only [step, State.isRunning, hrun, decide_true, if_true, Nat.not_le.2 hpc, if_false, hfetch, hdecode, advance_eq]
  cases exec i (traceExec i s) <;> rfl

end Sys2Proof.Machine
end

section
/-! PROOFS. Launches and whole runs (10_state.md section 10, 40_execution_loop.md section 1, 70_reset_and_hazards.md
section 1): what a launch accepts and starts from, the run as the source's loop over unbounded integers, the read-out, and
the obligations on them. -/

namespace Sys2Proof.Machine

/-! ### The launch -/

/-- Settles O33: a fresh state has `PC` 0, a running `STATUS` and no log, and loading latches `N` from `IMEM`. -/
theorem launchMeetsInvariant : Obligations.LaunchMeetsInvariant := by
  intro s bytes hfresh
  have hrun : (s.loadBytecode bytes).status.state = .running := hfresh.running
  obtain ⟨hpc, -, hstack, hstatus, hlog, hsize, hwf, hbound⟩ := hfresh
  have hlegal : s.status.Legal s.pc s.memSize := hstatus ▸ ⟨rfl, rfl, rfl⟩
  refine ⟨⟨hsize, hwf, hbound, rfl, hpc.trans_le (Nat.zero_le _), hstack, hlegal, by simp [hrun], by simp [hrun]⟩, ?_⟩
  have hempty : (s.loadBytecode bytes).log = [] := hlog
  rw [logShape_of_running hrun, hempty]
  exact ⟨fun _ hk => absurd hk (Nat.not_lt_zero _), hpc.symm⟩

/-- Settles O32: the reset state is a fresh state with the empty bytecode loaded. -/
theorem resetMeetsInvariant : Obligations.ResetMeetsInvariant :=
  launchMeetsInvariant State.reset [] (by decide)

/-- A launch of some cells with 64-bit values is accepted. -/
theorem launchState_of_inCell {size : Nat} {init : Nat → Int} (hsize : 1 ≤ size) (h : ∀ a, a < size → InCell (init a)) :
    launchState size init = .next { State.reset with
      memSize := size, dmem := Memory.ofFn size (fun a => BitVec.ofInt 64 (init a)) } :=
  (if_neg (Nat.ne_of_gt hsize)).trans (if_pos fun a ha => h a (List.mem_range.1 ha))

/-- A launch with a value that is no cell is refused. -/
theorem launchState_of_not_inCell {size a : Nat} {init : Nat → Int} (ha : a < size) (h : ¬ InCell (init a)) :
    launchState size init = .refused .cellOutOfRange :=
  (if_neg (Nat.ne_of_gt (Nat.zero_lt_of_lt ha))).trans (if_neg fun hall => h (hall a (List.mem_range.2 ha)))

/-- Settles O39: one equation of `launchState` per clause; the accepted memory is canonical and inside `MEM_SIZE`. -/
theorem launchContract : Obligations.LaunchContract := by
  refine ⟨fun size init => ⟨fun hsize hcell => ?accepted, fun hzero => if_pos hzero,
    fun a ha hout => launchState_of_not_inCell ha hout⟩, fun _ _ hnot => if_neg hnot⟩
  case accepted =>
    exact ⟨_, launchState_of_inCell hsize hcell, rfl, rfl, rfl, rfl, rfl, hsize, Memory.ofFn_wf _ _,
      Memory.ofFn_bounded _ _⟩

/-! ### The windows of a bytecode -/

/-- A first window is the five bytes in front. -/
theorem windows_eq_cons {bytes : List Byte} {w : Word} {ws : List Word} (h : windows bytes = w :: ws) :
    ∃ b0 b1 b2 b3 b4 rest, bytes = b0 :: b1 :: b2 :: b3 :: b4 :: rest ∧ leWord b0 b1 b2 b3 b4 = w ∧
      windows rest = ws := by
  unfold windows at h
  split at h
  · obtain ⟨hw, hws⟩ := List.cons.inj h
    exact ⟨_, _, _, _, _, _, rfl, hw, hws⟩
  · cases h

/-- The windows are as many as the whole instructions. -/
theorem length_windows : ∀ bytes : List Byte, (windows bytes).length = instrCount bytes
  | [] | [_] | [_, _] | [_, _, _] | [_, _, _, _] => by simp [windows, instrCount, Config.wordBytes]
  | _ :: _ :: _ :: _ :: _ :: rest => by
    simp only [windows, List.length_cons, length_windows rest, instrCount, Config.wordBytes]
    omega

/-! ### The source's loop, one equation per way to leave a word -/

theorem referenceRun_of_illegal {size pc : Nat} {w : Word} {ws : List Word} {v : Values} {a : OpField}
    (hw : decodeWord w = .error a) : referenceRun size pc (w :: ws) v =
      { pc := pc, values := v, error := some (.decodingError, a.setWidth 33) } := by
  simp [referenceRun, hw]

theorem referenceRun_of_outside {size pc : Nat} {w : Word} {ws : List Word} {v : Values} {i : Instr}
    (hw : decodeWord w = .ok i) (hout : outsideMemory size i = true) : referenceRun size pc (w :: ws) v =
      { pc := pc, values := v, error := some (.memoryAccessError, i.operand) } := by
  simp [referenceRun, hw, hout]

theorem referenceRun_of_inside {size pc : Nat} {w : Word} {ws : List Word} {v : Values} {i : Instr}
    (hw : decodeWord w = .ok i) (hin : outsideMemory size i = false) :
    referenceRun size pc (w :: ws) v = referenceRun size (pc + 1) ws (v.after i) := by
  simp [referenceRun, hw, hin]

/-! ### The run as the source's loop -/

/-- The state is what a run's end in the source's loop says. -/
def State.EndsAs (s : State) (r : RunEnd) : Prop := s.pc = r.pc ∧ s.values = r.values ∧ s.status = r.status

/-- The windows that a run has still to execute. -/
abbrev State.Remaining (s : State) (ws : List Word) : Prop :=
  s.status = Status.reset ∧ s.n = instrCount s.imem ∧ windows (s.imem.drop (5 * s.pc)) = ws

/-- With no window left, `PC` has reached `N`. -/
theorem State.Remaining.le_pc {s : State} (h : s.Remaining []) : s.n ≤ s.pc := by
  obtain ⟨-, hn, hwin⟩ := h
  have hlen := length_windows (s.imem.drop (5 * s.pc))
  rw [hwin, List.length_nil] at hlen
  simp only [instrCount, Config.wordBytes, List.length_drop] at hn hlen
  omega

/-- The first window left is the word that the next step fetches. -/
theorem State.Remaining.fetches {s : State} {w : Word} {ws : List Word} (h : s.Remaining (w :: ws)) :
    s.Fetches w ∧ windows (s.imem.drop (5 * (s.pc + 1))) = ws := by
  obtain ⟨hstatus, hn, hwin⟩ := h
  obtain ⟨b0, b1, b2, b3, b4, rest, hdrop, rfl, hrest⟩ := windows_eq_cons hwin
  have hnext : s.imem.drop (5 * (s.pc + 1)) = rest := by
    rw [Nat.mul_add, ← List.drop_drop, hdrop]
    rfl
  have hlt : s.pc < s.n := by
    have hlen := congrArg List.length hdrop
    simp only [instrCount, Config.wordBytes, List.length_drop, List.length_cons] at hn hlen
    omega
  exact ⟨⟨hstatus ▸ rfl, hlt, ifetch_of_drop hdrop⟩, hnext.symm ▸ hrest⟩

theorem State.Remaining.afterInstr {s : State} {w : Word} {ws : List Word} (h : s.Remaining (w :: ws)) (i : Instr) :
    (s.afterInstr i).Remaining ws := by
  obtain ⟨hstatus, hn, -⟩ := id h
  exact ⟨hstatus, hn, h.fetches.2⟩

/-- A run ends as the source's loop over the windows left, by induction on them. -/
theorem runFrom_endsAs_referenceRun {ws : List Word} {s : State} (h : s.Remaining ws) :
    ∃ t, runFrom (ws.length + 1) s = .next t ∧ t.EndsAs (referenceRun s.memSize s.pc ws s.values) := by
  induction ws generalizing s with
  | nil =>
    obtain ⟨hstatus, -⟩ := id h
    rw [runFrom_succ (step_of_end (hstatus ▸ rfl) h.le_pc)]
    exact ⟨_, rfl, rfl, rfl, by rw [haltNormal_status, hstatus]; rfl⟩
  | cons w ws ih =>
    rw [runFrom_succ (step_of_fetches h.fetches.1)]
    cases hw : decodeWord w with
    | error a =>
      rw [State.afterWord_of_illegal hw, referenceRun_of_illegal hw]
      exact ⟨_, runFrom_of_ended (by simp [haltDecoding]) _, rfl, rfl, rfl⟩
    | ok i =>
      cases hmem : outsideMemory s.memSize i with
      | true =>
        rw [State.afterWord_of_outside hw hmem, referenceRun_of_outside hw hmem]
        exact ⟨_, runFrom_of_ended (by simp [haltMemory]) _, rfl, rfl, rfl⟩
      | false =>
        have hvalues : (s.afterInstr i).values = s.values.after i := s.values_after i
        rw [State.afterWord_of_inside hw hmem, referenceRun_of_inside hw hmem, ← hvalues]
        exact ih (h.afterInstr i)

/-- Every step keeps `MEM_SIZE`, the invariant and the log's shape together. -/
theorem step_keeps_memSize_inv_logShape (size : Nat) (s t : State) (hs : s.memSize = size ∧ s.Inv ∧ LogShape s)
    (h : step s = .next t) : t.memSize = size ∧ t.Inv ∧ LogShape t := by
  obtain ⟨hsize, hinv, hlog⟩ := hs
  obtain ⟨-, -, hsize', -⟩ := nothingElseWritesControlState s t h
  exact ⟨hsize'.trans hsize, stepKeepsInvariant s t hinv h, stepKeepsLogShape s t hinv hlog h⟩

/-- Settles O43: the launched run has all the bytecode's windows to execute, so `runFrom_endsAs_referenceRun` gives its
end; `STACK`, `MEM_SIZE` and the log are `runFrom_keeps`'s. -/
theorem runRefinesUnboundedInterpreter : Obligations.RunRefinesUnboundedInterpreter := by
  intro bytes s hfresh
  obtain ⟨hpc, -, -, hstatus, -⟩ := id hfresh
  have hwin : (s.loadBytecode bytes).Remaining (windows bytes) := ⟨hstatus, rfl, congrArg
    (fun k => windows (bytes.drop (5 * k))) hpc⟩
  obtain ⟨t, ht, hpcEnd, hvalues, hstatusEnd⟩ := runFrom_endsAs_referenceRun hwin
  obtain ⟨hsize, ⟨-, -, -, -, -, hstack, -⟩, hlog⟩ := runFrom_keeps (step_keeps_memSize_inv_logShape s.memSize) _
    (s.loadBytecode bytes) t ⟨rfl, launchMeetsInvariant s bytes hfresh⟩ ht
  have hstart : (s.loadBytecode bytes).pc = 0 := hpc
  rw [hstart] at hpcEnd hvalues hstatusEnd
  refine ⟨t, ?_, hpcEnd, congrArg Values.acc hvalues, congrFun (congrArg Values.cell hvalues), hstatusEnd, hstack, hsize,
    hlog⟩
  rw [execute_of_fresh hfresh, ← length_windows, ht]

/-! ### The read-out -/

/-- Settles O44: inside data memory the read-out lists the range's cells in order. -/
theorem readOutShowsState : Obligations.ReadOutShowsState := by
  intro s first count hinside
  exact ⟨_, if_pos hinside, rfl, rfl, rfl, rfl, by simp, fun k hk => by simp [hk]⟩

end Sys2Proof.Machine
end

section
/-! PROOFS. The assembly of well-formed source text (30_encoding.md section 6): which lines a joined text has, that white
space at its ends does not change its IR, what one well-formed line parses to, and the obligation on whole sources. -/

namespace Sys2Proof.Machine

/-! ### The lines of a joined text -/

/-- The text has no line feed. -/
abbrev OneLine (t : Text) : Prop := ∀ c ∈ t, c ≠ '\n'

theorem splitLines_of_oneLine {l : Text} (h : OneLine l) : splitLines l = [l] := by
  induction l with
  | nil => rfl
  | cons c l ih =>
    obtain ⟨hc, hl⟩ := List.forall_mem_cons.1 h
    exact splitLines_cons hc (ih hl)

theorem splitLines_append_newline {l : Text} (h : OneLine l) (t : Text) :
    splitLines (l ++ '\n' :: t) = l :: splitLines t := by
  induction l with
  | nil => exact splitLines_newline_cons t
  | cons c l ih =>
    obtain ⟨hc, hl⟩ := List.forall_mem_cons.1 h
    exact splitLines_cons hc (ih hl)

/-- Splitting joined lines gives them back, if there are any. -/
theorem splitLines_joinLines {ls : List Text} (h : ∀ l ∈ ls, OneLine l) (hne : ls ≠ []) :
    splitLines (joinLines ls) = ls := by
  induction ls with
  | nil => exact absurd rfl hne
  | cons l ls ih =>
    obtain ⟨hl, hls⟩ := List.forall_mem_cons.1 h
    cases ls with
    | nil => simpa [joinLines] using splitLines_of_oneLine hl
    | cons k ls =>
      have hjoin : joinLines (l :: k :: ls) = l ++ '\n' :: joinLines (k :: ls) := by
        simp [joinLines]
      rw [hjoin, splitLines_append_newline hl, ih hls (by simp)]

/-! ### White space at the ends of a source -/

theorem parseLine_of_blankLine {l : Text} (h : BlankLine l) : parseLine l = .ok none := by
  simp [parseLine, h]

theorem AllSpace.blankLine {l : Text} (h : AllSpace l) : BlankLine l :=
  strip_dropComment_append_space [] l h

/-- Blank lines before others do not change what those parse to. -/
theorem parseLines_blank_append {before ls : List Text} (h : ∀ l ∈ before, BlankLine l) :
    parseLines (before ++ ls) = parseLines ls := by
  induction before with
  | nil => rfl
  | cons l before ih =>
    obtain ⟨hl, hbefore⟩ := List.forall_mem_cons.1 h
    rw [List.cons_append, parseLines, parseLine_of_blankLine hl, ih hbefore]
    cases parseLines ls <;> rfl

/-- Lines are parsed one by one, so lines that parse alike may stand for each other. -/
theorem parseLines_cons_congr {a b : Text} {as bs : List Text} (h : parseLine a = parseLine b)
    (hs : parseLines as = parseLines bs) : parseLines (a :: as) = parseLines (b :: bs) := by
  rw [parseLines, parseLines, h, hs]

theorem parseLines_append_congr {as bs : List Text} (before : List Text) (h : parseLines as = parseLines bs) :
    parseLines (before ++ as) = parseLines (before ++ bs) := by
  induction before with
  | nil => exact h
  | cons l before ih => exact parseLines_cons_congr rfl ih

/-- White space before a source does not change what its lines parse to. -/
theorem parseLines_splitLines_space_append {w : Text} (hw : AllSpace w) (t : Text) :
    parseLines (splitLines (w ++ t)) = parseLines (splitLines t) := by
  obtain ⟨before, l, r, after, hsplitw, hsplit, happ⟩ := splitLines_append w t
  have hblank : ∀ k ∈ before, BlankLine k := fun k hk => (hw.of_mem_splitLines (by simp [hsplitw, hk])).blankLine
  have hl : AllSpace l := hw.of_mem_splitLines (by simp [hsplitw])
  rw [happ, hsplit, parseLines_blank_append hblank]
  exact parseLines_cons_congr (parseLine_congr (strip_dropComment_space_append l r hl)) rfl

/-- White space after a source does not change what its lines parse to. -/
theorem parseLines_splitLines_append_space {w : Text} (hw : AllSpace w) (t : Text) :
    parseLines (splitLines (t ++ w)) = parseLines (splitLines t) := by
  obtain ⟨before, l, r, after, hsplit, hsplitw, happ⟩ := splitLines_append t w
  have hblank : ∀ k ∈ after, BlankLine k := fun k hk => (hw.of_mem_splitLines (by simp [hsplitw, hk])).blankLine
  have hr : AllSpace r := hw.of_mem_splitLines (by simp [hsplitw])
  rw [happ, hsplit]
  exact parseLines_append_congr before (parseLines_cons_congr
    (parseLine_congr (strip_dropComment_append_space l r hr)) (parseLines_of_blankLines hblank))

/-- Stripping a source does not change what its lines parse to. -/
theorem parseLines_splitLines_strip (source : Text) :
    parseLines (splitLines (strip source)) = parseLines (splitLines source) := by
  obtain ⟨w₁, w₂, hw₁, hw₂, hsource⟩ := strip_decompose source
  calc parseLines (splitLines (strip source))
      = parseLines (splitLines (strip source ++ w₂)) := (parseLines_splitLines_append_space hw₂ _).symm
    _ = parseLines (splitLines (w₁ ++ (strip source ++ w₂))) := (parseLines_splitLines_space_append hw₁ _).symm
    _ = parseLines (splitLines source) := by rw [← List.append_assoc, ← hsource]

/-- An assembly whose two passes succeed on the source's lines answers their IR and bytecode. -/
theorem assemble_of_passes {source : Text} {ir : List IrEntry} {bytes : List Byte}
    (hparse : parseLines (splitLines source) = .ok ir) (hlower : lower ir = .ok bytes) :
    ∃ r, assemble source = .ok r ∧ r.ir = ir ∧ r.bytecode = bytes := by
  rw [← parseLines_splitLines_strip] at hparse
  by_cases hnil : strip source = []
  · obtain rfl : [] = ir := Except.ok.inj ((parseLines_of_strip_eq_nil hnil).symm.trans hparse)
    obtain rfl : [] = bytes := Except.ok.inj hlower
    exact ⟨⟨[], [], true⟩, by simp [assemble, hnil], rfl, rfl⟩
  · exact ⟨⟨bytes, ir, false⟩, by simp [assemble, hnil, hparse, hlower], rfl, rfl⟩

/-! ### Stripping and splitting one line -/

/-- The text has no white space. -/
abbrev NoSpace (t : Text) : Prop := ∀ c ∈ t, isSpace c = false

/-- A text that begins with no white space keeps its beginning. -/
theorem stripLeft_of_noSpace_append {a : Text} (ha : NoSpace a) (hne : a ≠ []) (t : Text) :
    stripLeft (a ++ t) = a ++ t := by
  obtain ⟨c, a, rfl⟩ := List.exists_cons_of_ne_nil hne
  simp [stripLeft, ha c List.mem_cons_self]

/-- A text between two words without white space is not stripped. -/
theorem strip_between_noSpace {a b : Text} (ha : NoSpace a) (hane : a ≠ []) (hb : NoSpace b) (hbne : b ≠ [])
    (t : Text) : strip (a ++ (t ++ b)) = a ++ (t ++ b) := by
  have hb' : NoSpace b.reverse := fun c hc => hb c (List.mem_reverse.1 hc)
  have hrev : (a ++ (t ++ b)).reverse = b.reverse ++ (a ++ t).reverse := by
    rw [← List.append_assoc, List.reverse_append]
  rw [strip, stripLeft_of_noSpace_append ha hane, hrev, stripLeft_of_noSpace_append hb' (by simpa using hbne), ← hrev,
    List.reverse_reverse]

theorem strip_of_noSpace {a : Text} (ha : NoSpace a) (hne : a ≠ []) : strip a = a := by
  have ha' : NoSpace a.reverse := fun c hc => ha c (List.mem_reverse.1 hc)
  have hleft := stripLeft_of_noSpace_append ha hne []
  have hright := stripLeft_of_noSpace_append ha' (by simpa using hne) []
  rw [List.append_nil] at hleft hright
  rw [strip, hleft, hright, List.reverse_reverse]

/-- The comment is dropped, and with it nothing before it. -/
theorem dropComment_append_comment {t comment : Text} (ht : ∀ c ∈ t, c ≠ '#') (h : CommentText comment) :
    dropComment (t ++ comment) = t := by
  have hcomment : dropComment comment = [] := by
    obtain ⟨rfl | hhead, -⟩ := h
    · rfl
    · obtain ⟨rest, rfl⟩ := List.head?_eq_some_iff.1 hhead
      simp [dropComment]
  rw [dropComment_append t comment ht, hcomment, List.append_nil]

/-- The first `;` splits a line into the mnemonic and the argument, each stripped. -/
theorem splitArgument_append {a : Text} (ha : ∀ c ∈ a, c ≠ ';') (b : Text) :
    splitArgument (a ++ ';' :: b) = (strip a, some (strip b)) := by
  have ha' : ∀ c ∈ a, (c != ';') = true := fun c hc => bne_iff_ne.2 (ha c hc)
  simp [splitArgument, List.takeWhile_append_of_pos ha', List.dropWhile_append_of_pos ha']

/-! ### One well-formed line -/

/-- A character that is no white space, no `;` and no `#`, as the characters of mnemonics, signs and digits are. -/
abbrev PlainChar (c : Char) : Prop := isSpace c = false ∧ c ≠ ';' ∧ c ≠ '#'

theorem plainChar_mnemonicText (m : Mnemonic) : ∀ c ∈ mnemonicText m, PlainChar c := by
  cases m <;> simp [mnemonicText, PlainChar, isSpace]

theorem noSpace_mnemonicText (m : Mnemonic) : NoSpace (mnemonicText m) :=
  fun c hc => (plainChar_mnemonicText m c hc).1

theorem mnemonicText_ne_nil (m : Mnemonic) : mnemonicText m ≠ [] := by
  cases m <;> decide

theorem plainChar_of_isDecimalDigit {c : Char} (h : isDecimalDigit c = true) : PlainChar c := by
  have hbounds : 0x30 ≤ c.toNat ∧ c.toNat ≤ 0x39 := by simpa [isDecimalDigit] using h
  refine ⟨?_, ?_, ?_⟩
  · simp only [isSpace, Bool.or_eq_false_iff, Bool.and_eq_false_iff, decide_eq_false_iff_not]
    omega
  · rintro rfl
    exact absurd h (by decide)
  · rintro rfl
    exact absurd h (by decide)

/-- The argument of a line: its sign, if one stands there, and its digits. -/
def InstrLine.argument (l : InstrLine) : Text := (if l.plus then ['+'] else []) ++ l.digits

/-- A line's text without its outer white space and its comment. -/
def InstrLine.core (l : InstrLine) : Text :=
  mnemonicText l.mnemonic ++ (l.beforeSemicolon ++ ';' :: (l.afterSemicolon ++ l.argument))

theorem SourceLine.text_instr (l : InstrLine) :
    SourceLine.text (.instr l) = (l.lead ++ (l.core ++ l.trail)) ++ l.comment := by
  simp [SourceLine.text, InstrLine.core, InstrLine.argument]

/-- The text starts no comment and ends no line. -/
abbrev InLine (t : Text) : Prop := ∀ c ∈ t, c ≠ '#' ∧ c ≠ '\n'

theorem Blank.allSpace {t : Text} (h : Blank t) : AllSpace t :=
  fun c hc => (Bool.and_eq_true_iff.1 (List.all_eq_true.1 h c hc)).1

theorem Blank.inLine {t : Text} (h : Blank t) : InLine t :=
  fun c hc => ⟨h.allSpace.no_hash c hc, bne_iff_ne.1 (Bool.and_eq_true_iff.1 (List.all_eq_true.1 h c hc)).2⟩

theorem inLine_of_plainChar {t : Text} (h : ∀ c ∈ t, PlainChar c) : InLine t := by
  intro c hc
  obtain ⟨hspace, -, hhash⟩ := h c hc
  refine ⟨hhash, ?_⟩
  rintro rfl
  exact absurd hspace (by decide)

theorem CommentText.oneLine {t : Text} (h : CommentText t) : OneLine t :=
  fun c hc => bne_iff_ne.1 (List.all_eq_true.1 h.2 c hc)

section

variable {l : InstrLine} (h : SourceLine.Good (.instr l))
include h

theorem SourceLine.Good.argument_plainChar : ∀ c ∈ l.argument, PlainChar c := by
  obtain ⟨-, -, -, -, -, -, hdigits, -⟩ := h
  have hplain : ∀ c ∈ l.digits, PlainChar c := fun c hc => plainChar_of_isDecimalDigit (List.all_eq_true.1 hdigits c hc)
  unfold InstrLine.argument
  cases l.plus with
  | true => exact List.forall_mem_cons.2 ⟨by decide, hplain⟩
  | false => exact hplain

theorem SourceLine.Good.argument_noSpace : NoSpace l.argument :=
  fun c hc => (h.argument_plainChar c hc).1

theorem SourceLine.Good.argument_ne_nil : l.argument ≠ [] := by
  obtain ⟨-, -, -, -, -, hne, -⟩ := h
  simp [InstrLine.argument, hne]

/-- The argument, with or without its plus sign, is the number its digits write. -/
theorem SourceLine.Good.parseInteger_argument : parseInteger l.argument = some (digitsValue l.digits : Int) := by
  obtain ⟨-, -, -, -, -, hne, hdigits, -⟩ := h
  have hdec : DecimalDigits l.digits := ⟨hne, fun c hc => (isDecimalDigit_iff c).1 (List.all_eq_true.1 hdigits c hc)⟩
  unfold InstrLine.argument
  cases l.plus with
  | true => exact (parseDigits_map_eq_some_iff Int.ofNat _ _).2 ⟨hdec, rfl⟩
  | false => exact parseInteger_of_decimalDigits hdec

theorem SourceLine.Good.inLine : InLine (l.lead ++ (l.core ++ l.trail)) := by
  have hargument := inLine_of_plainChar h.argument_plainChar
  have hname := inLine_of_plainChar (plainChar_mnemonicText l.mnemonic)
  obtain ⟨hlead, hbefore, hafter, htrail, -⟩ := h
  simp only [InstrLine.core, InLine, List.forall_mem_append, List.forall_mem_cons]
  exact ⟨hlead.inLine, ⟨hname, hbefore.inLine, by decide, hafter.inLine, hargument⟩, htrail.inLine⟩

/-- Without its comment and its outer white space, a line is its core. -/
theorem SourceLine.Good.strip_text : strip (dropComment (SourceLine.text (.instr l))) = l.core := by
  have hinLine := h.inLine
  have hargument := h.argument_noSpace
  have hne := h.argument_ne_nil
  have hcore : l.core
      = mnemonicText l.mnemonic ++ ((l.beforeSemicolon ++ ';' :: l.afterSemicolon) ++ l.argument) := by
    simp [InstrLine.core]
  obtain ⟨hlead, -, -, htrail, hcomment, -⟩ := h
  rw [SourceLine.text_instr, dropComment_append_comment (fun c hc => (hinLine c hc).1) hcomment,
    strip_space_append _ _ hlead.allSpace, strip_append_space _ _ htrail.allSpace, hcore,
    strip_between_noSpace (noSpace_mnemonicText _) (mnemonicText_ne_nil _) hargument hne]

/-- The core splits into the mnemonic's spelling and the argument. -/
theorem SourceLine.Good.splitArgument_core : splitArgument l.core = (mnemonicText l.mnemonic, some l.argument) := by
  have hargument := h.argument_noSpace
  have hne := h.argument_ne_nil
  obtain ⟨-, hbefore, hafter, -⟩ := h
  have hsemicolon : ∀ c ∈ mnemonicText l.mnemonic ++ l.beforeSemicolon, c ≠ ';' := by
    refine List.forall_mem_append.2 ⟨fun c hc => ?_, ?_⟩
    · obtain ⟨-, hc', -⟩ := plainChar_mnemonicText l.mnemonic c hc
      exact hc'
    · rintro c hc rfl
      exact absurd (hbefore.allSpace _ hc) (by decide)
  rw [InstrLine.core, ← List.append_assoc, splitArgument_append hsemicolon, strip_append_space _ _ hbefore.allSpace,
    strip_space_append _ _ hafter.allSpace, strip_of_noSpace (noSpace_mnemonicText _) (mnemonicText_ne_nil _),
    strip_of_noSpace hargument hne]

/-- A well-formed instruction line parses to its IR entry. -/
theorem SourceLine.Good.parseLine_instr : parseLine (SourceLine.text (.instr l))
    = .ok (some { mnemonic := mnemonicText l.mnemonic, argument := (digitsValue l.digits : Int) }) := by
  have hne : l.core ≠ [] := by simp [InstrLine.core]
  simp [parseLine, h.strip_text, hne, h.splitArgument_core, h.parseInteger_argument]

end

/-! ### Well-formed sources -/

theorem SourceLine.Good.oneLine {l : SourceLine} (h : l.Good) : OneLine l.text := by
  cases l with
  | instr l =>
    have hinLine := h.inLine
    obtain ⟨-, -, -, -, hcomment, -⟩ := h
    rw [SourceLine.text_instr]
    exact List.forall_mem_append.2 ⟨fun c hc => (hinLine c hc).2, hcomment.oneLine⟩
  | blank space comment =>
    obtain ⟨hspace, hcomment⟩ := h
    exact List.forall_mem_append.2 ⟨fun c hc => (hspace.inLine c hc).2, hcomment.oneLine⟩

theorem SourceLine.Good.blankLine {space comment : Text} (h : SourceLine.Good (.blank space comment)) :
    BlankLine (SourceLine.text (.blank space comment)) := by
  obtain ⟨hspace, hcomment⟩ := h
  rw [BlankLine, SourceLine.text, dropComment_append_comment hspace.allSpace.no_hash hcomment,
    (strip_eq_nil_iff space).2 hspace.allSpace]

/-- The first pass on well-formed lines gives their IR. -/
theorem parseLines_of_good {lines : List SourceLine} (h : ∀ l ∈ lines, l.Good) :
    parseLines (lines.map SourceLine.text) = .ok (sourceIr lines) := by
  induction lines with
  | nil => rfl
  | cons l lines ih =>
    obtain ⟨hl, hlines⟩ := List.forall_mem_cons.1 h
    cases l with
    | instr l => simp [parseLines, hl.parseLine_instr, ih hlines, sourceIr]
    | blank space comment => simp [parseLines, parseLine_of_blankLine hl.blankLine, ih hlines, sourceIr]

/-- The second pass on the IR of well-formed lines gives their instructions' words. -/
theorem lower_of_good {lines : List SourceLine} (h : ∀ l ∈ lines, l.Good) :
    lower (sourceIr lines) = .ok (encodeProgram (sourceInstrs lines)) := by
  induction lines with
  | nil => rfl
  | cons l lines ih =>
    obtain ⟨hl, hlines⟩ := List.forall_mem_cons.1 h
    have hrest := ih hlines
    unfold sourceIr sourceInstrs at hrest ⊢
    cases l with
    | instr l =>
      obtain ⟨-, -, -, -, -, -, -, hbudget⟩ := hl
      have hentry := lowerEntry_mnemonicText l.mnemonic (digitsValue l.digits : Int)
      rw [encodePort_opcode l.mnemonic hbudget] at hentry
      simp [lower, hentry, hrest, Except.mapError]
    | blank space comment => simpa using hrest

/-- Settles O50: the joined text has the lines themselves (or one empty line), each parses to its entry or to nothing,
and each entry is lowered to its instruction's word. -/
theorem assembledSourceIsItsProgram : Obligations.AssembledSourceIsItsProgram := by
  intro lines hgood
  refine assemble_of_passes ?_ (lower_of_good hgood)
  cases lines with
  | nil => rfl
  | cons l lines =>
    have hone : ∀ t ∈ (l :: lines).map SourceLine.text, OneLine t :=
      List.forall_mem_map.2 fun k hk => (hgood k hk).oneLine
    rw [splitLines_joinLines hone (by simp), parseLines_of_good hgood]

end Sys2Proof.Machine
end
